-- ==== Sys2Proof/Word.lean ====
section
/-! DEFINITION. The word types of the engine (spec/00_scope.md R4, R6; spec/30_encoding.md R72). -/

namespace Sys2Proof

/-- A register, a timer, a memory cell: 8 bits (R4). -/
abbrev Byte := BitVec 8

/-- PC, I, a stack entry, an instruction word: 16 bits (R4, R70). -/
abbrev Word := BitVec 16

/-- One nibble of an instruction word: the fields x, y and n (R72). -/
abbrev Nibble := BitVec 4

/-- The field nnn (R72). -/
abbrev Addr12 := BitVec 12

end Sys2Proof
end

