-- ==== Sys2Proof/Syntax.lean ====
section
/-! DEFINITION. The 35 instructions (spec/30_encoding.md R75), one constructor per row of
spec/opcode_table.json. -/

namespace Sys2Proof

/-- The instructions, in the order of R75. A field named `ign` holds bits of the word that the decoder
ignores (R74, R75, D13); it has no effect but for the word a fault record shows (log 8). -/
inductive Instr where
  /-- 0nnn SYS nnn (R120) -/
  | sys (nnn : Addr12)
  /-- 00E0 CLS (R190) -/
  | cls (ign : Nibble)
  /-- 00EE RET (R121) -/
  | ret (ign : Nibble)
  /-- 1nnn JMP nnn (R122) -/
  | jmp (nnn : Addr12)
  /-- 2nnn CALL nnn (R123) -/
  | call (nnn : Addr12)
  /-- 3xkk SE Vx, kk (R125) -/
  | seImm (x : Nibble) (kk : Byte)
  /-- 4xkk SNE Vx, kk (R126) -/
  | sneImm (x : Nibble) (kk : Byte)
  /-- 5xy0 SE Vx, Vy (R127) -/
  | seReg (x y ign : Nibble)
  /-- 6xkk LD Vx, kk (R141) -/
  | ldImm (x : Nibble) (kk : Byte)
  /-- 7xkk ADD Vx, kk (R142) -/
  | addImm (x : Nibble) (kk : Byte)
  /-- 8xy0 LD Vx, Vy (R143) -/
  | ldReg (x y : Nibble)
  /-- 8xy1 OR Vx, Vy (R144) -/
  | orReg (x y : Nibble)
  /-- 8xy2 AND Vx, Vy (R145) -/
  | andReg (x y : Nibble)
  /-- 8xy3 XOR Vx, Vy (R146) -/
  | xorReg (x y : Nibble)
  /-- 8xy4 ADD Vx, Vy (R147) -/
  | addReg (x y : Nibble)
  /-- 8xy5 SUB Vx, Vy (R148) -/
  | subReg (x y : Nibble)
  /-- 8xy6 SHR Vx, Vy (R152) -/
  | shr (x y : Nibble)
  /-- 8xy7 SUBN Vx, Vy (R149) -/
  | subn (x y : Nibble)
  /-- 8xyE SHL Vx, Vy (R154) -/
  | shl (x y : Nibble)
  /-- 9xy0 SNE Vx, Vy (R128) -/
  | sneReg (x y ign : Nibble)
  /-- Annn LD I, nnn (R170) -/
  | ldI (nnn : Addr12)
  /-- Bnnn JMP V0, nnn (R129) -/
  | jmpV0 (nnn : Addr12)
  /-- Cxkk RND Vx, kk (R155) -/
  | rnd (x : Nibble) (kk : Byte)
  /-- Dxyn DRW Vx, Vy, n (R192) -/
  | drw (x y n : Nibble)
  /-- Ex9E SKP Vx (R210) -/
  | skp (x : Nibble)
  /-- ExA1 SKNP Vx (R211) -/
  | sknp (x : Nibble)
  /-- Fx07 LD Vx, DT (R214) -/
  | ldVxDt (x : Nibble)
  /-- Fx0A LD Vx, K (R212) -/
  | ldVxK (x : Nibble)
  /-- Fx15 LD DT, Vx (R215) -/
  | ldDtVx (x : Nibble)
  /-- Fx18 LD ST, Vx (R216) -/
  | ldStVx (x : Nibble)
  /-- Fx1E ADD I, Vx (R171) -/
  | addI (x : Nibble)
  /-- Fx29 LD F, Vx (R172) -/
  | ldF (x : Nibble)
  /-- Fx33 LD B, Vx (R174) -/
  | ldB (x : Nibble)
  /-- Fx55 LD [I], Vx (R176) -/
  | storeRegs (x : Nibble)
  /-- Fx65 LD Vx, [I] (R177) -/
  | loadRegs (x : Nibble)
  deriving DecidableEq, Repr

end Sys2Proof
end

