-- ==== Sys2Proof/Decode.lean ====
section
/-! DEFINITION. The decoder, the encoder and the opcode map (spec/30_encoding.md R70 to R79). -/

namespace Sys2Proof

/-! ## Fields of a word (R71, R72): plain unsigned slices, none extended or scaled -/

/-- Nibble 1, the family. -/
def fieldOp (w : Word) : Nibble := w.extractLsb' 12 4
/-- Nibble 2. -/
def fieldX (w : Word) : Nibble := w.extractLsb' 8 4
/-- Nibble 3. -/
def fieldY (w : Word) : Nibble := w.extractLsb' 4 4
/-- Nibble 4. -/
def fieldN (w : Word) : Nibble := w.extractLsb' 0 4
/-- The low byte. -/
def fieldKk (w : Word) : Byte := w.extractLsb' 0 8
/-- The low twelve bits. -/
def fieldNnn (w : Word) : Addr12 := w.extractLsb' 0 12

/-- Two bytes as a word, the first the high byte (R54). -/
def wordOfBytes (hi lo : Byte) : Word := hi ++ lo
/-- The byte at the lower address, which holds nibbles 1 and 2 (R54). -/
def highByte (w : Word) : Byte := w.extractLsb' 8 8
/-- The byte at the higher address. -/
def lowByte (w : Word) : Byte := w.extractLsb' 0 8

/-! ## Decode (R74, R76) -/

/-- Why bytes are no instruction. -/
inductive DecodeError where
  /-- the word matches no row of R75; this is the spec's `Decode(w)` (R76, R232) -/
  | illegal (w : Word)
  /-- fewer than the two bytes every instruction has (R70) -/
  | tooShort
  deriving DecidableEq, Repr

/-- Family 0 looks at the low byte (R74); everything but CLS and RET is SYS (R75). -/
def decodeFamily0 (w : Word) : Instr :=
  match (fieldKk w).toNat with
  | 0xE0 => .cls (fieldX w)
  | 0xEE => .ret (fieldX w)
  | _ => .sys (fieldNnn w)

/-- Family 8 looks at nibble 4 (R74, R76). -/
def decodeFamily8 (w : Word) : Except DecodeError Instr :=
  match (fieldN w).toNat with
  | 0x0 => .ok (.ldReg (fieldX w) (fieldY w))
  | 0x1 => .ok (.orReg (fieldX w) (fieldY w))
  | 0x2 => .ok (.andReg (fieldX w) (fieldY w))
  | 0x3 => .ok (.xorReg (fieldX w) (fieldY w))
  | 0x4 => .ok (.addReg (fieldX w) (fieldY w))
  | 0x5 => .ok (.subReg (fieldX w) (fieldY w))
  | 0x6 => .ok (.shr (fieldX w) (fieldY w))
  | 0x7 => .ok (.subn (fieldX w) (fieldY w))
  | 0xE => .ok (.shl (fieldX w) (fieldY w))
  | _ => .error (.illegal w)

/-- Family E looks at the low byte (R74, R76). -/
def decodeFamilyE (w : Word) : Except DecodeError Instr :=
  match (fieldKk w).toNat with
  | 0x9E => .ok (.skp (fieldX w))
  | 0xA1 => .ok (.sknp (fieldX w))
  | _ => .error (.illegal w)

/-- Family F looks at the low byte (R74, R76). -/
def decodeFamilyF (w : Word) : Except DecodeError Instr :=
  match (fieldKk w).toNat with
  | 0x07 => .ok (.ldVxDt (fieldX w))
  | 0x0A => .ok (.ldVxK (fieldX w))
  | 0x15 => .ok (.ldDtVx (fieldX w))
  | 0x18 => .ok (.ldStVx (fieldX w))
  | 0x1E => .ok (.addI (fieldX w))
  | 0x29 => .ok (.ldF (fieldX w))
  | 0x33 => .ok (.ldB (fieldX w))
  | 0x55 => .ok (.storeRegs (fieldX w))
  | 0x65 => .ok (.loadRegs (fieldX w))
  | _ => .error (.illegal w)

/-- Decode is by the family first (R74). Total: every word is one instruction or illegal. -/
def decode (w : Word) : Except DecodeError Instr :=
  match (fieldOp w).toNat with
  | 0x0 => .ok (decodeFamily0 w)
  | 0x1 => .ok (.jmp (fieldNnn w))
  | 0x2 => .ok (.call (fieldNnn w))
  | 0x3 => .ok (.seImm (fieldX w) (fieldKk w))
  | 0x4 => .ok (.sneImm (fieldX w) (fieldKk w))
  | 0x5 => .ok (.seReg (fieldX w) (fieldY w) (fieldN w))
  | 0x6 => .ok (.ldImm (fieldX w) (fieldKk w))
  | 0x7 => .ok (.addImm (fieldX w) (fieldKk w))
  | 0x8 => decodeFamily8 w
  | 0x9 => .ok (.sneReg (fieldX w) (fieldY w) (fieldN w))
  | 0xA => .ok (.ldI (fieldNnn w))
  | 0xB => .ok (.jmpV0 (fieldNnn w))
  | 0xC => .ok (.rnd (fieldX w) (fieldKk w))
  | 0xD => .ok (.drw (fieldX w) (fieldY w) (fieldN w))
  | 0xE => decodeFamilyE w
  | _ => decodeFamilyF w

/-- Decoding from a byte string: the instruction and the rest. Every instruction has two bytes, the
high one first (R70, R79). -/
def decodeBytes : List Byte → Except DecodeError (Instr × List Byte)
  | hi :: lo :: rest => (decode (wordOfBytes hi lo)).map fun i => (i, rest)
  | _ => .error .tooShort

/-- The instruction the decoder reads from the table's numbering of a word: bit 0 is the least
significant bit of the word, the bits above nbits are 0, and the word stands high byte first. -/
def decodeTableWord (nbits w : Nat) : Option Instr :=
  let word : Word := BitVec.ofNat 16 (w % 2 ^ nbits)
  match decodeBytes [highByte word, lowByte word] with
  | .ok (i, _) => some i
  | .error _ => none

/-- The illegal words, as R76 lists them. -/
def isIllegal (w : Word) : Bool :=
  let n := (fieldN w).toNat
  let kk := (fieldKk w).toNat
  match (fieldOp w).toNat with
  | 0x8 => [0x8, 0x9, 0xA, 0xB, 0xC, 0xD, 0xF].contains n
  | 0xE => !([0x9E, 0xA1].contains kk)
  | 0xF => !([0x07, 0x0A, 0x15, 0x18, 0x1E, 0x29, 0x33, 0x55, 0x65].contains kk)
  | _ => false

/-! ## Encode (R73, R75) -/

/-- Format A: family and address. -/
def packA (op : Nibble) (nnn : Addr12) : Word := op ++ nnn
/-- Formats XK and X: family, register, byte. -/
def packXK (op x : Nibble) (kk : Byte) : Word := op ++ x ++ kk
/-- Formats XY and XYN: family and three nibbles. -/
def packXYN (op x y n : Nibble) : Word := op ++ x ++ y ++ n

/-- The word of an instruction, from the rows of R75. -/
def encode : Instr → Word
  | .sys nnn => packA 0x0 nnn
  | .cls ign => packXK 0x0 ign 0xE0
  | .ret ign => packXK 0x0 ign 0xEE
  | .jmp nnn => packA 0x1 nnn
  | .call nnn => packA 0x2 nnn
  | .seImm x kk => packXK 0x3 x kk
  | .sneImm x kk => packXK 0x4 x kk
  | .seReg x y ign => packXYN 0x5 x y ign
  | .ldImm x kk => packXK 0x6 x kk
  | .addImm x kk => packXK 0x7 x kk
  | .ldReg x y => packXYN 0x8 x y 0x0
  | .orReg x y => packXYN 0x8 x y 0x1
  | .andReg x y => packXYN 0x8 x y 0x2
  | .xorReg x y => packXYN 0x8 x y 0x3
  | .addReg x y => packXYN 0x8 x y 0x4
  | .subReg x y => packXYN 0x8 x y 0x5
  | .shr x y => packXYN 0x8 x y 0x6
  | .subn x y => packXYN 0x8 x y 0x7
  | .shl x y => packXYN 0x8 x y 0xE
  | .sneReg x y ign => packXYN 0x9 x y ign
  | .ldI nnn => packA 0xA nnn
  | .jmpV0 nnn => packA 0xB nnn
  | .rnd x kk => packXK 0xC x kk
  | .drw x y n => packXYN 0xD x y n
  | .skp x => packXK 0xE x 0x9E
  | .sknp x => packXK 0xE x 0xA1
  | .ldVxDt x => packXK 0xF x 0x07
  | .ldVxK x => packXK 0xF x 0x0A
  | .ldDtVx x => packXK 0xF x 0x15
  | .ldStVx x => packXK 0xF x 0x18
  | .addI x => packXK 0xF x 0x1E
  | .ldF x => packXK 0xF x 0x29
  | .ldB x => packXK 0xF x 0x33
  | .storeRegs x => packXK 0xF x 0x55
  | .loadRegs x => packXK 0xF x 0x65

/-- The assembler's two bytes of an instruction, the high byte first (R79). -/
def encodeBytes (i : Instr) : List Byte := [highByte (encode i), lowByte (encode i)]

/-! ## The opcode map as match and mask (R75) -/

/-- One row of R75: a word w selects the row when w AND mask = bits. -/
structure OpcodeRow where
  bits : Word
  mask : Word
  deriving DecidableEq, Repr

/-- The row of each instruction, with the match and mask columns of R75 as they stand there. -/
def opcodeRow : Instr → OpcodeRow
  | .sys _ => ⟨0x0000, 0xF000⟩
  | .cls _ => ⟨0x00E0, 0xF0FF⟩
  | .ret _ => ⟨0x00EE, 0xF0FF⟩
  | .jmp _ => ⟨0x1000, 0xF000⟩
  | .call _ => ⟨0x2000, 0xF000⟩
  | .seImm _ _ => ⟨0x3000, 0xF000⟩
  | .sneImm _ _ => ⟨0x4000, 0xF000⟩
  | .seReg _ _ _ => ⟨0x5000, 0xF000⟩
  | .ldImm _ _ => ⟨0x6000, 0xF000⟩
  | .addImm _ _ => ⟨0x7000, 0xF000⟩
  | .ldReg _ _ => ⟨0x8000, 0xF00F⟩
  | .orReg _ _ => ⟨0x8001, 0xF00F⟩
  | .andReg _ _ => ⟨0x8002, 0xF00F⟩
  | .xorReg _ _ => ⟨0x8003, 0xF00F⟩
  | .addReg _ _ => ⟨0x8004, 0xF00F⟩
  | .subReg _ _ => ⟨0x8005, 0xF00F⟩
  | .shr _ _ => ⟨0x8006, 0xF00F⟩
  | .subn _ _ => ⟨0x8007, 0xF00F⟩
  | .shl _ _ => ⟨0x800E, 0xF00F⟩
  | .sneReg _ _ _ => ⟨0x9000, 0xF000⟩
  | .ldI _ => ⟨0xA000, 0xF000⟩
  | .jmpV0 _ => ⟨0xB000, 0xF000⟩
  | .rnd _ _ => ⟨0xC000, 0xF000⟩
  | .drw _ _ _ => ⟨0xD000, 0xF000⟩
  | .skp _ => ⟨0xE09E, 0xF0FF⟩
  | .sknp _ => ⟨0xE0A1, 0xF0FF⟩
  | .ldVxDt _ => ⟨0xF007, 0xF0FF⟩
  | .ldVxK _ => ⟨0xF00A, 0xF0FF⟩
  | .ldDtVx _ => ⟨0xF015, 0xF0FF⟩
  | .ldStVx _ => ⟨0xF018, 0xF0FF⟩
  | .addI _ => ⟨0xF01E, 0xF0FF⟩
  | .ldF _ => ⟨0xF029, 0xF0FF⟩
  | .ldB _ => ⟨0xF033, 0xF0FF⟩
  | .storeRegs _ => ⟨0xF055, 0xF0FF⟩
  | .loadRegs _ => ⟨0xF065, 0xF0FF⟩

/-- A word selects a row (R75). -/
def OpcodeRow.selectedBy (r : OpcodeRow) (w : Word) : Bool := w &&& r.mask == r.bits

end Sys2Proof
end

