-- ==== Sys2Proof/Config.lean ====
section
/-! DEFINITION. What is fixed for the engine (spec/00_scope.md R4, R5) and the free values that come
from outside it (spec/40_cycle.md R100; notes/assumptions/1.md). -/

namespace Sys2Proof

/-- Bytes of memory (R4, R50). -/
@[simp] abbrev Config.memSize : Nat := 4096

/-- Bytes of the font, at addresses 0 to 79 (R4, R173). -/
@[simp] abbrev Config.fontSize : Nat := 80

/-- The program load address and entry point, 0x200 (R4, R262). -/
@[simp] abbrev Config.loadAddress : Nat := 0x200

/-- The longest ROM image, 4096 - 512 bytes (R4, R261). -/
@[simp] abbrev Config.maxRom : Nat := 3584

/-- The forced-redraw threshold in cycles (R4, R108). -/
@[simp] abbrev Config.redrawThreshold : Nat := 100

/-- Parameter SYS_MODE: what 0nnn SYS does (R5, R120, D12). -/
inductive SysMode where
  | nop
  | fault
  deriving DecidableEq, Repr

/-- The two agents that step the engine (R246). -/
inductive Agent where
  /-- the next step is one instruction cycle (port `cycle_req`, R101) -/
  | cycle
  /-- the next step is one timer tick (port `tick`, R217) -/
  | timer
  deriving DecidableEq, Repr, Inhabited

/-- What the outside world does next: which agent moves, and what stands on the input ports of a
cycle (R100, R102). -/
structure EnvSlot where
  agent : Agent
  /-- port `keys`: bit k says that logical key k is held (R33) -/
  keys : BitVec 16
  /-- port `quit`: the stop request sampled with the keys (R102) -/
  quit : Bool
  /-- port `rnd`: the random byte of this cycle (R156) -/
  rnd : Byte
  /-- the draw that Fx0A makes among several held keys (R212, D11) -/
  choice : Nibble
  deriving DecidableEq, Repr, Inhabited

/-- FREE VALUE (log 1). The environment's n-th slot: no body, so no proof can use what it is.
Keys, quit, random bytes, the choice among held keys and the number of ticks between two cycles
are all drawn from it (R33, R102, R156, R212, R218). -/
opaque Config.envSlot : Nat → EnvSlot

end Sys2Proof
end

