-- ==== Sys2Proof/Machine/State.lean ====
section
/-! DEFINITION. The state of the engine (spec/10_state.md R20 to R35), as plain data, and the state right
after reset (R35; spec/70_reset_and_hazards.md R260). -/

namespace Sys2Proof.Machine

/-- The fault causes of spec/60_exceptions.md R230 (codes 1 to 7). -/
inductive Cause where
  /-- code 1: the fetched word matches no row of the opcode map (R232) -/
  | decode
  /-- code 2: a fetch with PC above 0xFFE (R233) -/
  | fetchRange
  /-- code 3: a data address above 0xFFF (R236) -/
  | memRange
  /-- code 4: CALL with 16 entries on the stack (R234) -/
  | stackOverflow
  /-- code 5: RET with an empty stack (R235) -/
  | stackUnderflow
  /-- code 6: Ex9E or ExA1 with Vx above 15 (R237) -/
  | keyRange
  /-- code 7: 0nnn when SYS_MODE = fault (R238) -/
  | sysUnsupported
  deriving DecidableEq, Repr

/-- The reason shown on `halt_reason` (R32, R100). -/
inductive HaltReason where
  /-- the `quit` input at the start of a cycle: a stop, not a fault (R239) -/
  | quit
  /-- the fault record of R231: the cause, the faulting instruction's address, its word (0 for
  FetchRange), and the recorded info of R230, an unbounded integer -/
  | fault (cause : Cause) (pc : Word) (word : Word) (info : Nat)
  deriving DecidableEq, Repr

/-- The run state (R32). -/
inductive RunState where
  | running
  | halted (reason : HaltReason)
  deriving DecidableEq, Repr

/-- Memory: (address, byte) pairs, addresses strictly rising, no entry equal to what an unlisted
address reads as. The operations are in Ops.lean. -/
abbrev Memory := List Host.Cell

/-- The framebuffer: 32 rows of 64 one-bit pixels (R28). -/
abbrev FrameBuffer := Vector (Vector Bool 64) 32

/-- Every piece of state the spec gives the engine, then the model's own environment fields. -/
structure State where
  /-- V0 to VF (R20); VF is also the flag output (R21) -/
  v : Vector Byte 16
  /-- the index register I (R23) -/
  i : Word
  /-- the program counter (R22) -/
  pc : Word
  /-- the return-address stack S[0] to S[15] (R24) -/
  stack : Vector Word 16
  /-- the stack pointer, which counts the entries in use, 0 to 16 (R24) -/
  sp : Fin 17
  /-- the delay timer DT (R26) -/
  dt : Byte
  /-- the sound timer ST (R26) -/
  st : Byte
  /-- the framebuffer FB (R28) -/
  fb : FrameBuffer
  /-- memory, 4096 bytes (R50) -/
  mem : Memory
  /-- configuration bit: 8xy6 and 8xyE shift Vy (R29, R151) -/
  useOriginalShiftInstructions : Bool
  /-- configuration bit: Dxyn clips at the screen edge (R29, R193) -/
  enableClipping : Bool
  /-- construction parameter SYS_MODE (R5, R120) -/
  sysMode : SysMode
  /-- the draw flag (R30) -/
  draw : Bool
  /-- the redraw counter, 0 to 99 in 7 bits (R31) -/
  redrawCtr : BitVec 7
  /-- the output `redraw` as the last executed cycle set it (R100, R108; log 6) -/
  redraw : Bool
  /-- the run state (R32) -/
  run : RunState
  /-- THE MODEL'S OWN: who moves next, and the input ports of the next cycle (R33, R100; log 1) -/
  env : EnvSlot
  /-- THE MODEL'S OWN: how many slots of the environment have been served (log 1) -/
  envSeq : Nat
  deriving DecidableEq, Repr

/-- Where the machine stops without a next state. -/
inductive Fault where
  /-- Raised by `step` alone, when a cycle is requested of a halted engine: "a halted engine has no
  cycle step" (R101, R231). Safe: it ends the run where the engine does nothing (log 7). -/
  | halted (reason : HaltReason)
  deriving DecidableEq, Repr

/-- Why an instruction has no meaning in this model. -/
inductive Refusal where
  /-- An arm of `exec` whose instruction has no meaning yet, by its mnemonic. No arm answers it.
  Safe: it stops where the engine goes on. -/
  | notModelled (mnemonic : String)
  deriving DecidableEq, Repr

/-- What a step and an instruction answer. -/
abbrev Result := Host.Outcome State Fault Refusal

/-- The state right after reset (R35, R260): an empty ROM, both quirks 0 and SYS_MODE = nop (log 3), the
spec's zero registers (log 4), memory as constructed, with nothing listed (log 5), `redraw` 0 (log 6), and
a quiet first cycle request in the environment's slot (log 2). -/
def State.reset : State where
  v := Vector.replicate 16 0
  i := 0
  pc := 0x200
  stack := Vector.replicate 16 0
  sp := 0
  dt := 0
  st := 0
  fb := Vector.replicate 32 (Vector.replicate 64 false)
  mem := []
  useOriginalShiftInstructions := false
  enableClipping := false
  sysMode := .nop
  draw := false
  redrawCtr := 0
  redraw := false
  run := .running
  env := { agent := .cycle, keys := 0, quit := false, rnd := 0, choice := 0 }
  envSeq := 0

end Sys2Proof.Machine
end

