-- ==== Sys2Proof/Machine/Ops.lean ====
section
/-! DEFINITION. The named operations over memory, registers, the stack, the program counter and the
timers, and taking a fault (spec/10_state.md, spec/20_memory.md, spec/40_cycle.md R105,
spec/60_exceptions.md R231). -/

namespace Sys2Proof.Machine

/-! ## Memory (R50 to R58) -/

/-- The default `FONT`: 16 glyphs of 5 bytes, the top row first (R173, D4; log 5). -/
def defaultFont : Vector Byte 80 := #v[
  0xF0, 0x90, 0x90, 0x90, 0xF0,
  0x20, 0x60, 0x20, 0x20, 0x70,
  0xF0, 0x10, 0xF0, 0x80, 0xF0,
  0xF0, 0x10, 0xF0, 0x10, 0xF0,
  0x90, 0x90, 0xF0, 0x10, 0x10,
  0xF0, 0x80, 0xF0, 0x10, 0xF0,
  0xF0, 0x80, 0xF0, 0x90, 0xF0,
  0xF0, 0x10, 0x20, 0x40, 0x40,
  0xF0, 0x90, 0xF0, 0x90, 0xF0,
  0xF0, 0x90, 0xF0, 0x10, 0xF0,
  0xF0, 0x90, 0xF0, 0x90, 0x90,
  0xE0, 0x90, 0xE0, 0x90, 0xE0,
  0xF0, 0x80, 0x80, 0x80, 0xF0,
  0xE0, 0x90, 0x90, 0x90, 0xE0,
  0xF0, 0x80, 0xF0, 0x80, 0xF0,
  0xF0, 0x80, 0xF0, 0x80, 0x80]

/-- The default `MEM_FILL` (R5, D3; log 5). -/
def defaultMemFill : Byte := 0x00

/-- What an unlisted address reads as: the reset contents of R58 with the default `FONT` and `MEM_FILL`
and no ROM. -/
def background (a : Nat) : Byte :=
  if h : a < 80 then defaultFont[a] else defaultMemFill

/-- The byte at address a (R52). -/
def Memory.read (m : Memory) (a : Nat) : Byte :=
  match m with
  | [] => background a
  | (b, w) :: rest => if a = b then w else Memory.read rest a

/-- Memory without an entry for address a. -/
def Memory.erase (m : Memory) (a : Nat) : Memory := m.filter fun c => c.1 != a

/-- Memory with the entry (a, w) before the first entry of a higher address. -/
def Memory.place (m : Memory) (a : Nat) (w : Byte) : Memory :=
  match m with
  | [] => [(a, w)]
  | (b, u) :: rest => if a < b then (a, w) :: (b, u) :: rest else (b, u) :: Memory.place rest a w

/-- Store byte w at address a (R52): the old entry goes, and the new one comes unless w is what an
unlisted a reads as. -/
def Memory.write (m : Memory) (a : Nat) (w : Byte) : Memory :=
  if w = background a then m.erase a else (m.erase a).place a w

/-- The canonical form, given that every listed address is at least `lo`: addresses rise strictly, stay
below 4096 (R50), and no entry says what an unlisted address would. -/
def Memory.wfFrom (lo : Nat) : Memory → Bool
  | [] => true
  | (b, w) :: rest =>
    decide (lo ≤ b) && decide (b < Config.memSize) && decide (w ≠ background b) && Memory.wfFrom (b + 1) rest

/-- The canonical form of memory. -/
def Memory.wf (m : Memory) : Bool := Memory.wfFrom 0 m

/-- MemRead(a, 1) (R7, R52). -/
def State.readByte (s : State) (a : Nat) : Byte := s.mem.read a

/-- MemWrite(a, 1, w) (R7, R52). -/
def State.writeByte (s : State) (a : Nat) (w : Byte) : State := { s with mem := s.mem.write a w }

/-- The lowest address above 0xFFF among i, i + 1, …, i + n - 1, if there is one. Data addresses are
unbounded integers, never wrapped (R53, D8). -/
def outOfRange (i : Word) (n : Nat) : Option Nat :=
  if n ≠ 0 ∧ 0xFFF < i.toNat + (n - 1) then some (max i.toNat 0x1000) else none

/-- The word at PC and PC + 1, high byte first (R54). -/
def State.wordAtPc (s : State) : Word :=
  wordOfBytes (s.readByte s.pc.toNat) (s.readByte (s.pc.toNat + 1))

/-- Instruction fetch: no word when PC + 1 > 0xFFF (R54, R233). -/
def State.fetch (s : State) : Option Word :=
  if 0xFFF < s.pc.toNat + 1 then none else some s.wordAtPc

/-- Place a word where `fetch` reads it; at a PC that cannot be fetched there is no such place. -/
def State.placeWord (s : State) (w : Word) : State :=
  if 0xFFF < s.pc.toNat + 1 then s
  else (s.writeByte s.pc.toNat (highByte w)).writeByte (s.pc.toNat + 1) (lowByte w)

/-! ## Registers (R20, R21) -/

/-- V[x]. No register is hardwired, banked or aliased (R20). -/
def State.getV (s : State) (x : Nibble) : Byte := s.v[x.toNat]

/-- V[x] <- b. -/
def State.setV (s : State) (x : Nibble) (b : Byte) : State := { s with v := s.v.set x.toNat b }

/-- I <- a (R23). -/
def State.setI (s : State) (a : Word) : State := { s with i := a }

/-- DT <- b (R26). -/
def State.setDt (s : State) (b : Byte) : State := { s with dt := b }

/-- ST <- b (R26). -/
def State.setSt (s : State) (b : Byte) : State := { s with st := b }

/-- FB <- f (R28). -/
def State.setFb (s : State) (f : FrameBuffer) : State := { s with fb := f }

/-- draw <- 1 (R7, R197). -/
def State.markDraw (s : State) : State := { s with draw := true }

/-- The index of VF, the flag output (R21). -/
abbrev flagReg : Nibble := 0xF

/-- The number of the k-th register, for the blocks of Fx55 and Fx65. -/
def regNumber (k : Nat) : Nibble := BitVec.ofNat 4 k

/-- Fx55's loop over k = 0, …, n - 1: M[base + k] <- V[k] (R176). -/
def State.storeBlock (s : State) (base : Nat) : Nat → State
  | 0 => s
  | n + 1 =>
    let t := s.storeBlock base n
    t.writeByte (base + n) (t.getV (regNumber n))

/-- Fx65's loop over k = 0, …, n - 1: V[k] <- M[base + k] (R177). -/
def State.loadBlock (s : State) (base : Nat) : Nat → State
  | 0 => s
  | n + 1 =>
    let t := s.loadBlock base n
    t.setV (regNumber n) (t.readByte (base + n))

/-! ## The stack controller (R24, R25) -/

/-- Push(v): none is StackOverflow. -/
def State.push (s : State) (v : Word) : Option State :=
  if h : s.sp.val < 16 then
    some { s with stack := s.stack.set s.sp.val v, sp := ⟨s.sp.val + 1, by omega⟩ }
  else none

/-- Pop(): none is StackUnderflow. The entry it leaves is not cleared. -/
def State.pop (s : State) : Option (Word × State) :=
  if h : 0 < s.sp.val then
    some (s.stack[s.sp.val - 1], { s with sp := ⟨s.sp.val - 1, by omega⟩ })
  else none

/-! ## The program counter (R22, R105) -/

/-- The PC action of an instruction. -/
inductive PcAction where
  | advance
  | skipNext
  | jumpTo (t : Word)
  | waitForKey
  deriving DecidableEq, Repr

/-- The PC after an action; sums wrap modulo 2^16 (R105, D8). -/
def PcAction.target (a : PcAction) (pc : Word) : Word :=
  match a with
  | .advance => pc + 2
  | .skipNext => pc + 4
  | .jumpTo t => t
  | .waitForKey => pc

/-- ApplyPcAction(a) (R105). -/
def State.applyPcAction (s : State) (a : PcAction) : State := { s with pc := a.target s.pc }

/-- The action of a conditional skip (R106). -/
def skipIf (b : Bool) : PcAction := if b then .skipNext else .advance

/-! ## How an instruction ends -/

/-- The instruction completes: its one PC action is applied (R105). -/
def complete (a : PcAction) (s : State) : Result := .next (s.applyPcAction a)

/-- Taking a fault (R231): the run state records the cause, PC, the word and the info; nothing else
changes. -/
def State.raise (s : State) (c : Cause) (w : Word) (info : Nat) : State :=
  { s with run := .halted (.fault c s.pc w info) }

/-- The instruction ends in a fault (R7 `raise`). -/
def trap (c : Cause) (w : Word) (info : Nat) (s : State) : Result := .next (s.raise c w info)

/-- Check the whole range of n data bytes at I before any access; MemRange reports the lowest address
above 0xFFF (R53, R236). -/
def withRange (w : Word) (n : Nat) (s : State) (body : Result) : Result :=
  match outOfRange s.i n with
  | some a => trap .memRange w a s
  | none => body

/-- The numeric code of a cause (R230). -/
def Cause.code : Cause → Nat
  | .decode => 1
  | .fetchRange => 2
  | .memRange => 3
  | .stackOverflow => 4
  | .stackUnderflow => 5
  | .keyRange => 6
  | .sysUnsupported => 7

/-- The code of a halt reason: Quit has 0 (R230). -/
def HaltReason.code : HaltReason → Nat
  | .quit => 0
  | .fault c _ _ _ => c.code

/-! ## Timers (R26, R217) -/

/-- One timer's decrement, floored at 0. -/
def decTimer (t : Byte) : Byte := if t = 0 then 0 else t - 1

/-- Tick(): both timers, and nothing else (R217). -/
def State.tick (s : State) : State := { s with dt := decTimer s.dt, st := decTimer s.st }

/-! ## The framebuffer (R28) -/

/-- FB[r][c]. -/
def FrameBuffer.pixel (f : FrameBuffer) (r : Fin 32) (c : Fin 64) : Bool := f[r][c]

/-- FB[r][c] <- FB[r][c] XOR 1. -/
def FrameBuffer.toggle (f : FrameBuffer) (r : Fin 32) (c : Fin 64) : FrameBuffer :=
  f.set r (f[r].set c (!f[r][c]))

/-- The framebuffer with every pixel 0. -/
def FrameBuffer.blank : FrameBuffer := Vector.replicate 32 (Vector.replicate 64 false)

/-! ## Draw flag and redraw logic (R107, R108) -/

/-- RedrawUpdate(draw): sets the output `redraw` and the counter (R108). -/
def State.redrawUpdate (s : State) : State :=
  if s.draw then { s with redrawCtr := 0, redraw := true }
  else if s.redrawCtr.toNat + 1 = Config.redrawThreshold then { s with redrawCtr := 0, redraw := true }
  else { s with redrawCtr := s.redrawCtr + 1, redraw := false }

/-! ## Outputs (R27, R100) -/

/-- The output `sound_active` (R27). -/
def State.soundActive (s : State) : Bool := s.st != 0

/-- The output `halted` (R100). -/
def State.isHalted (s : State) : Bool :=
  match s.run with
  | .running => false
  | .halted _ => true

/-- The output `halt_reason` (R100, R231). -/
def State.haltReason (s : State) : Option HaltReason :=
  match s.run with
  | .running => none
  | .halted r => some r

end Sys2Proof.Machine
end

