-- ==== Sys2Proof/Machine/Operands.lean ====
section
/-! DEFINITION. Operand forms: immediates, the shift operand, the jump offset, keys, digits and sprites. -/

namespace Sys2Proof.Machine

/-- nnn meets PC and I zero-extended to 16 bits (R72). -/
def addressOperand (nnn : Addr12) : Word := nnn.zeroExtend 16

/-- An 8-bit register value where it meets a 16-bit one (R7 zext_16). -/
def wideOperand (b : Byte) : Word := b.zeroExtend 16

/-- The shift operand's copy: with `useOriginalShiftInstructions` Vx is first overwritten with Vy,
otherwise Vy is ignored (R151). -/
def State.copyShiftOperand (s : State) (x y : Nibble) : State :=
  if s.useOriginalShiftInstructions then s.setV x (s.getV y) else s

/-- The address of the font glyph of a byte, not masked to its low nibble (R172). -/
def glyphAddress (b : Byte) : Word := wideOperand b * 5

/-! ## Decimal digits (R174) -/

/-- v div 100. -/
def hundreds (b : Byte) : Byte := BitVec.ofNat 8 (b.toNat / 100)
/-- (v div 10) mod 10. -/
def tens (b : Byte) : Byte := BitVec.ofNat 8 (b.toNat / 10 % 10)
/-- v mod 10. -/
def units (b : Byte) : Byte := BitVec.ofNat 8 (b.toNat % 10)

/-! ## Keys (R33, R210 to R213) -/

/-- K[k], the key vector of this cycle. -/
def State.keyHeld (s : State) (k : Nat) : Bool := s.env.keys.getLsbD k

/-- { k in 0..15 | K[k] = 1 }, lowest first (R212). -/
def heldKeys (keys : BitVec 16) : List Nat := (List.range 16).filter fun k => keys.getLsbD k

/-- choose(P): the environment's draw picks any one of the held keys; none when no key is held (R212,
D11; log 9). -/
def chooseKey (keys : BitVec 16) (choice : Nibble) : Option Byte :=
  let held := heldKeys keys
  (held[choice.toNat % held.length]?).map fun k => BitVec.ofNat 8 k

/-- The key index of Ex9E and ExA1 is the value in Vx, not masked; above 15 it is KeyRange, before the
key vector is read (R213, R237). -/
def withKeyIndex (w : Word) (x : Nibble) (s : State) (body : Nat → Result) : Result :=
  let k := (s.getV x).toNat
  if 15 < k then trap .keyRange w k s else body k

/-! ## Sprites (R191 to R195) -/

/-- Sprite pixel column c of a row byte: bit 7 is the leftmost (R191, D18). -/
def spriteBit (b : Byte) (c : Nat) : Bool := b.getLsbD (7 - c)

/-- XOR one set sprite pixel at column px and row py onto the screen: skipped off the grid when clipping
(R193), wrapped otherwise (R194); a 1 to 0 transition is a collision (R195). -/
def plot (clip : Bool) (px py : Nat) (acc : FrameBuffer × Bool) : FrameBuffer × Bool :=
  if clip && (decide (63 < px) || decide (31 < py)) then acc
  else
    let r := Fin.ofNat 32 py
    let c := Fin.ofNat 64 px
    (acc.1.toggle r c, acc.2 || acc.1.pixel r c)

/-- The loop over the first n columns of one sprite row (R192). -/
def drawRow (clip : Bool) (cx py : Nat) (b : Byte) (acc : FrameBuffer × Bool) : Nat → FrameBuffer × Bool
  | 0 => acc
  | c + 1 =>
    let acc' := drawRow clip cx py b acc c
    if spriteBit b c then plot clip (cx + c) py acc' else acc'

/-- The loop over the first n rows of a sprite whose row bytes are `row 0`, `row 1`, … (R192). -/
def drawSprite (clip : Bool) (cx cy : Nat) (row : Nat → Byte) (acc : FrameBuffer × Bool) :
    Nat → FrameBuffer × Bool
  | 0 => acc
  | r + 1 => drawRow clip cx (cy + r) (row r) (drawSprite clip cx cy row acc r) 8

end Sys2Proof.Machine
end

