-- ==== Sys2Proof/Machine/Flags.lean ====
section
/-! DEFINITION. Every value VF takes as a flag (spec/10_state.md R21; spec/42_alu.md R140), and the two ways an
ALU instruction writes its result. -/

namespace Sys2Proof.Machine

/-- A flag as the byte VF receives. -/
def flagByte (f : Bool) : Byte := if f then 1 else 0

/-- 8xy4: the unsigned sum exceeds 255 (R147). -/
def carryOut (a b : Byte) : Bool := decide (255 < a.toNat + b.toNat)

/-- 8xy5 (a = Vx, b = Vy) and 8xy7 (a = Vy, b = Vx): NOT borrow with the strict comparison a > b, so
equal operands give 0 (R148, R149, R150; 90_conflicts.md C4). -/
def notBorrow (a b : Byte) : Bool := decide (b.toNat < a.toNat)

/-- 8xy6: bit 0, the bit shifted out (R152). -/
def shiftedOutRight (a : Byte) : Bool := a.getLsbD 0

/-- 8xyE: bit 7, the bit shifted out (R154). -/
def shiftedOutLeft (a : Byte) : Bool := a.getLsbD 7

/-- The result to Vx, VF only as a destination, Advance (R140). -/
def writeResult (x : Nibble) (r : Byte) (s : State) : Result := complete .advance (s.setV x r)

/-- The result to Vx, then the flag to VF, always in this order, so that with x = F the flag is what VF
holds; Advance (R21, R140; 90_conflicts.md C1). -/
def writeResultAndFlag (x : Nibble) (r : Byte) (f : Bool) (s : State) : Result :=
  complete .advance ((s.setV x r).setV flagReg (flagByte f))

end Sys2Proof.Machine
end

