-- ==== Sys2Proof/Machine/Alu.lean ====
section
/-! DEFINITION. ALU and register moves (spec/42_alu.md R140 to R156). Operands are read once, before any write;
the flag is written last (R140). -/

namespace Sys2Proof.Machine

/-- LD Vx, kk (R141). -/
def execLdImm (x : Nibble) (kk : Byte) (s : State) : Result := writeResult x kk s

/-- ADD Vx, kk: no carry is recorded (R142). -/
def execAddImm (x : Nibble) (kk : Byte) (s : State) : Result := writeResult x (s.getV x + kk) s

/-- LD Vx, Vy (R143). -/
def execLdReg (x y : Nibble) (s : State) : Result := writeResult x (s.getV y) s

/-- OR Vx, Vy; VF <- 0 (R144). -/
def execOrReg (x y : Nibble) (s : State) : Result :=
  writeResultAndFlag x (s.getV x ||| s.getV y) false s

/-- AND Vx, Vy; VF <- 0 (R145). -/
def execAndReg (x y : Nibble) (s : State) : Result :=
  writeResultAndFlag x (s.getV x &&& s.getV y) false s

/-- XOR Vx, Vy; VF <- 0 (R146). -/
def execXorReg (x y : Nibble) (s : State) : Result :=
  writeResultAndFlag x (s.getV x ^^^ s.getV y) false s

/-- ADD Vx, Vy; VF <- carry (R147). -/
def execAddReg (x y : Nibble) (s : State) : Result :=
  let a := s.getV x
  let b := s.getV y
  writeResultAndFlag x (a + b) (carryOut a b) s

/-- SUB Vx, Vy: Vx - Vy; VF <- [Vx > Vy] (R148). -/
def execSubReg (x y : Nibble) (s : State) : Result :=
  let a := s.getV x
  let b := s.getV y
  writeResultAndFlag x (a - b) (notBorrow a b) s

/-- SHR Vx, Vy; VF <- bit 0 of the operand (R151, R152). -/
def execShr (x y : Nibble) (s : State) : Result :=
  let s' := s.copyShiftOperand x y
  let a := s'.getV x
  writeResultAndFlag x (a >>> 1) (shiftedOutRight a) s'

/-- SUBN Vx, Vy: Vy - Vx; VF <- [Vy > Vx] (R149). -/
def execSubn (x y : Nibble) (s : State) : Result :=
  let a := s.getV x
  let b := s.getV y
  writeResultAndFlag x (b - a) (notBorrow b a) s

/-- SHL Vx, Vy; VF <- bit 7 of the operand (R151, R154). -/
def execShl (x y : Nibble) (s : State) : Result :=
  let s' := s.copyShiftOperand x y
  let a := s'.getV x
  writeResultAndFlag x (a <<< 1) (shiftedOutLeft a) s'

/-- RND Vx, kk: the byte on port `rnd` AND kk (R155, R156; log 1). -/
def execRnd (x : Nibble) (kk : Byte) (s : State) : Result := writeResult x (s.env.rnd &&& kk) s

end Sys2Proof.Machine
end

