-- ==== Sys2Proof/Machine/ControlFlow.lean ====
section
/-! DEFINITION. Control flow (spec/41_control_flow.md R120 to R129). -/

namespace Sys2Proof.Machine

/-- SYS nnn: advances when SYS_MODE = nop, raises SysUnsupported(w) when SYS_MODE = fault (R120, R238). -/
def execSys (nnn : Addr12) (s : State) : Result :=
  let w := encode (.sys nnn)
  match s.sysMode with
  | .nop => complete .advance s
  | .fault => trap .sysUnsupported w w.toNat s

/-- RET: pops the address of the CALL and jumps two bytes past it (R121, R235). -/
def execRet (ign : Nibble) (s : State) : Result :=
  match s.pop with
  | none => trap .stackUnderflow (encode (.ret ign)) s.sp.val s
  | some (t, s') => complete (.jumpTo (t + 2)) s'

/-- JMP nnn (R122). -/
def execJmp (nnn : Addr12) (s : State) : Result := complete (.jumpTo (addressOperand nnn)) s

/-- CALL nnn: pushes its own address (R123, R234). -/
def execCall (nnn : Addr12) (s : State) : Result :=
  match s.push s.pc with
  | none => trap .stackOverflow (encode (.call nnn)) s.sp.val s
  | some s' => complete (.jumpTo (addressOperand nnn)) s'

/-- SE Vx, kk (R125). -/
def execSeImm (x : Nibble) (kk : Byte) (s : State) : Result :=
  complete (skipIf (s.getV x == kk)) s

/-- SNE Vx, kk (R126). -/
def execSneImm (x : Nibble) (kk : Byte) (s : State) : Result :=
  complete (skipIf (s.getV x != kk)) s

/-- SE Vx, Vy (R127); the low nibble has no effect (R74). -/
def execSeReg (x y : Nibble) (s : State) : Result :=
  complete (skipIf (s.getV x == s.getV y)) s

/-- SNE Vx, Vy (R128); the low nibble has no effect (R74). -/
def execSneReg (x y : Nibble) (s : State) : Result :=
  complete (skipIf (s.getV x != s.getV y)) s

/-- JMP V0, nnn: nnn + V0, not reduced to 12 bits (R129). -/
def execJmpV0 (nnn : Addr12) (s : State) : Result :=
  complete (.jumpTo (addressOperand nnn + wideOperand (s.getV 0))) s

end Sys2Proof.Machine
end

