-- ==== Sys2Proof/Machine/Display.lean ====
section
/-! DEFINITION. Display instructions (spec/44_display.md R190 to R197). -/

namespace Sys2Proof.Machine

/-- CLS: every pixel 0; the draw flag is not set (R190, D16). -/
def execCls (s : State) : Result := complete .advance (s.setFb FrameBuffer.blank)

/-- What DRW leaves on the screen, and whether a pixel went from 1 to 0: n bytes from I, at
(Vx mod 64, Vy mod 32) (R192). -/
def State.spriteResult (s : State) (x y n : Nibble) : FrameBuffer × Bool :=
  drawSprite s.enableClipping ((s.getV x).toNat % 64) ((s.getV y).toNat % 32)
    (fun r => s.readByte (s.i.toNat + r)) (s.fb, false) n.toNat

/-- DRW Vx, Vy, n: all n bytes are range-checked first, clipped rows too (R196); the coordinates are read
before VF is written; VF <- collision after all pixels (R195); the draw flag is set whatever the
collision (R197). -/
def execDrw (x y n : Nibble) (s : State) : Result :=
  withRange (encode (.drw x y n)) n.toNat s
    (let p := s.spriteResult x y n
     complete .advance ((s.setFb p.1).markDraw.setV flagReg (flagByte p.2)))

end Sys2Proof.Machine
end

