-- ==== Sys2Proof/Machine/IndexMemory.lean ====
section
/-! DEFINITION. Index register and memory transfers (spec/43_index_memory.md R170 to R177). -/

namespace Sys2Proof.Machine

/-- LD I, nnn (R170). -/
def execLdI (nnn : Addr12) (s : State) : Result := complete .advance (s.setI (addressOperand nnn))

/-- ADD I, Vx: modulo 2^16, VF is not written (R171, D23). -/
def execAddI (x : Nibble) (s : State) : Result :=
  complete .advance (s.setI (s.i + wideOperand (s.getV x)))

/-- LD F, Vx: I <- Vx * 5 (R172). -/
def execLdF (x : Nibble) (s : State) : Result :=
  complete .advance (s.setI (glyphAddress (s.getV x)))

/-- LD B, Vx: hundreds, tens, units to I, I + 1, I + 2; I is not changed (R174). -/
def execLdB (x : Nibble) (s : State) : Result :=
  let a := s.i.toNat
  let b := s.getV x
  withRange (encode (.ldB x)) 3 s
    (complete .advance
      (((s.writeByte a (hundreds b)).writeByte (a + 1) (tens b)).writeByte (a + 2) (units b)))

/-- LD [I], Vx: V0 to Vx to I, I + 1, …; then I <- I + x + 1 (R175, R176). -/
def execStoreRegs (x : Nibble) (s : State) : Result :=
  withRange (encode (.storeRegs x)) (x.toNat + 1) s
    (complete .advance
      ((s.storeBlock s.i.toNat (x.toNat + 1)).setI (s.i + BitVec.ofNat 16 (x.toNat + 1))))

/-- LD Vx, [I]: V0 to Vx from I, I + 1, …; then I <- I + x + 1 (R175, R177). -/
def execLoadRegs (x : Nibble) (s : State) : Result :=
  withRange (encode (.loadRegs x)) (x.toNat + 1) s
    (complete .advance
      ((s.loadBlock s.i.toNat (x.toNat + 1)).setI (s.i + BitVec.ofNat 16 (x.toNat + 1))))

end Sys2Proof.Machine
end

