-- ==== Sys2Proof/Machine/KeysTimers.lean ====
section
/-! DEFINITION. Key and timer instructions (spec/45_keys_timers.md R210 to R216). -/

namespace Sys2Proof.Machine

/-- SKP Vx (R210, R213). -/
def execSkp (x : Nibble) (s : State) : Result :=
  withKeyIndex (encode (.skp x)) x s fun k => complete (skipIf (s.keyHeld k)) s

/-- SKNP Vx (R211, R213). -/
def execSknp (x : Nibble) (s : State) : Result :=
  withKeyIndex (encode (.sknp x)) x s fun k => complete (skipIf (!s.keyHeld k)) s

/-- LD Vx, K: waits with PC unchanged while no key is held; otherwise stores a held key (R111, R212). -/
def execLdVxK (x : Nibble) (s : State) : Result :=
  match chooseKey s.env.keys s.env.choice with
  | none => complete .waitForKey s
  | some k => complete .advance (s.setV x k)

/-- LD Vx, DT (R214). -/
def execLdVxDt (x : Nibble) (s : State) : Result := complete .advance (s.setV x s.dt)

/-- LD DT, Vx (R215). -/
def execLdDtVx (x : Nibble) (s : State) : Result := complete .advance (s.setDt (s.getV x))

/-- LD ST, Vx (R216). -/
def execLdStVx (x : Nibble) (s : State) : Result := complete .advance (s.setSt (s.getV x))

end Sys2Proof.Machine
end

