-- ==== Sys2Proof/Machine/Cycle.lean ====
section
/-! DEFINITION. The instruction cycle (spec/40_cycle.md R101 to R108) and the environment's turn
(spec/45_keys_timers.md R218). -/

namespace Sys2Proof.Machine

/-- The start of an executed cycle: the draw flag is cleared (R107). The key vector stands in `env` for
the whole cycle (R33, R102). -/
def State.beginCycle (s : State) : State := { s with draw := false }

/-- The end of a cycle that began in s and whose execute step gave t. A completed instruction gets the
redraw update (R108); a faulted one leaves the state of the cycle's start but for the run state
(R101, R231). -/
def State.endCycle (s t : State) : State :=
  match t.run with
  | .running => t.redrawUpdate
  | .halted r => { s with run := .halted r }

/-- Cycle(keys, quit, rnd) of a running engine, with the checks in the order of R240 (R101, R102). -/
def cycle (s : State) : Result :=
  if s.env.quit then .next { s with run := .halted .quit }
  else
    match s.fetch with
    | none => .next (s.raise .fetchRange 0 s.pc.toNat)
    | some w =>
      match decode w with
      | .error _ => .next (s.raise .decode w w.toNat)
      | .ok i =>
        match exec i s.beginCycle with
        | .next t => .next (s.endCycle t)
        | .fault f => .fault f
        | .refused r => .refused r

/-- The environment gives its next slot: fresh inputs, and who moves next (R33, R218; log 1). -/
def State.serveEnv (s : State) : State :=
  { s with env := Config.envSlot s.envSeq, envSeq := s.envSeq + 1 }

/-- A cycle request: "a halted engine has no cycle step" (R101; log 7). -/
def cycleTurn (s : State) : Result :=
  match s.run with
  | .halted r => .fault (.halted r)
  | .running =>
    match cycle s with
    | .next t => .next t.serveEnv
    | .fault f => .fault f
    | .refused r => .refused r

/-- A tick: it happens whether the engine runs, waits or has halted (R217, R218). -/
def timerTurn (s : State) : Result := .next s.tick.serveEnv

/-- A slot in which the next cycle runs: the cycle agent's turn, without a quit request. -/
def cycleRequest (e : EnvSlot) : EnvSlot := { e with agent := .cycle, quit := false }

end Sys2Proof.Machine
end

