-- ==== Sys2Proof/Machine/Step.lean ====
section
/-! DEFINITION. One step of the machine: one cycle or one tick (spec/00_scope.md R9). -/

namespace Sys2Proof.Machine

/-- One step: the agent whose turn it is moves (R9, R246). -/
def step (s : State) : Host.Outcome State Fault Refusal :=
  match s.env.agent with
  | .cycle => cycleTurn s
  | .timer => timerTurn s

/-- The state with the instruction of the table's word at PC and PC + 1, the engine running, and the next
slot a cycle request without quit, so that the very next step runs it (log 3, log 19). -/
def State.withFetchWord (s : State) (nbits w : Nat) : State :=
  { s.placeWord (BitVec.ofNat 16 (w % 2 ^ nbits)) with run := .running, env := cycleRequest s.env }

end Sys2Proof.Machine
end

