-- ==== Sys2Proof/Machine/Assembly.lean ====
section
/-! DEFINITION. The assembler's notation (spec/30_encoding.md R78, R79; D26). It has no effect on the machine: it
names words. -/

namespace Sys2Proof.Machine

/-- The operands of R78: registers, hex immediates and keywords. -/
inductive Operand where
  | reg (x : Nibble)
  | imm (n : Nat)
  /-- `I` -/
  | index
  /-- `DT` -/
  | delay
  /-- `ST` -/
  | sound
  /-- `K`, the key wait -/
  | key
  /-- `F`, the font -/
  | font
  /-- `B`, BCD -/
  | bcd
  /-- `[I]`, memory at I -/
  | atIndex
  deriving DecidableEq, Repr

/-- The mnemonic of R75. -/
def mnemonicOf : Instr → String
  | .sys _ => "SYS"
  | .cls _ => "CLS"
  | .ret _ => "RET"
  | .jmp _ => "JMP"
  | .call _ => "CALL"
  | .seImm _ _ => "SE"
  | .sneImm _ _ => "SNE"
  | .seReg _ _ _ => "SE"
  | .ldImm _ _ => "LD"
  | .addImm _ _ => "ADD"
  | .ldReg _ _ => "LD"
  | .orReg _ _ => "OR"
  | .andReg _ _ => "AND"
  | .xorReg _ _ => "XOR"
  | .addReg _ _ => "ADD"
  | .subReg _ _ => "SUB"
  | .shr _ _ => "SHR"
  | .subn _ _ => "SUBN"
  | .shl _ _ => "SHL"
  | .sneReg _ _ _ => "SNE"
  | .ldI _ => "LD"
  | .jmpV0 _ => "JMP"
  | .rnd _ _ => "RND"
  | .drw _ _ _ => "DRW"
  | .skp _ => "SKP"
  | .sknp _ => "SKNP"
  | .ldVxDt _ => "LD"
  | .ldVxK _ => "LD"
  | .ldDtVx _ => "LD"
  | .ldStVx _ => "LD"
  | .addI _ => "ADD"
  | .ldF _ => "LD"
  | .ldB _ => "LD"
  | .storeRegs _ => "LD"
  | .loadRegs _ => "LD"

/-- The operands of R75, in order. Ignored bits are not written. -/
def operandsOf : Instr → List Operand
  | .sys nnn => [.imm nnn.toNat]
  | .cls _ => []
  | .ret _ => []
  | .jmp nnn => [.imm nnn.toNat]
  | .call nnn => [.imm nnn.toNat]
  | .seImm x kk => [.reg x, .imm kk.toNat]
  | .sneImm x kk => [.reg x, .imm kk.toNat]
  | .seReg x y _ => [.reg x, .reg y]
  | .ldImm x kk => [.reg x, .imm kk.toNat]
  | .addImm x kk => [.reg x, .imm kk.toNat]
  | .ldReg x y => [.reg x, .reg y]
  | .orReg x y => [.reg x, .reg y]
  | .andReg x y => [.reg x, .reg y]
  | .xorReg x y => [.reg x, .reg y]
  | .addReg x y => [.reg x, .reg y]
  | .subReg x y => [.reg x, .reg y]
  | .shr x y => [.reg x, .reg y]
  | .subn x y => [.reg x, .reg y]
  | .shl x y => [.reg x, .reg y]
  | .sneReg x y _ => [.reg x, .reg y]
  | .ldI nnn => [.index, .imm nnn.toNat]
  | .jmpV0 nnn => [.reg 0, .imm nnn.toNat]
  | .rnd x kk => [.reg x, .imm kk.toNat]
  | .drw x y n => [.reg x, .reg y, .imm n.toNat]
  | .skp x => [.reg x]
  | .sknp x => [.reg x]
  | .ldVxDt x => [.reg x, .delay]
  | .ldVxK x => [.reg x, .key]
  | .ldDtVx x => [.delay, .reg x]
  | .ldStVx x => [.sound, .reg x]
  | .addI x => [.index, .reg x]
  | .ldF x => [.font, .reg x]
  | .ldB x => [.bcd, .reg x]
  | .storeRegs x => [.atIndex, .reg x]
  | .loadRegs x => [.reg x, .atIndex]

/-- A 12-bit immediate, if it fits. -/
def addressImm (n : Nat) : Option Addr12 := if n < 4096 then some (BitVec.ofNat 12 n) else none
/-- An 8-bit immediate, if it fits. -/
def byteImm (n : Nat) : Option Byte := if n < 256 then some (BitVec.ofNat 8 n) else none
/-- A 4-bit immediate, if it fits. -/
def nibbleImm (n : Nat) : Option Nibble := if n < 16 then some (BitVec.ofNat 4 n) else none

/-- LD with its eleven operand shapes (R75). -/
def assembleLd : List Operand → Option Instr
  | [.reg x, .imm n] => (byteImm n).map fun kk => .ldImm x kk
  | [.reg x, .reg y] => some (.ldReg x y)
  | [.index, .imm n] => (addressImm n).map fun a => .ldI a
  | [.reg x, .delay] => some (.ldVxDt x)
  | [.reg x, .key] => some (.ldVxK x)
  | [.delay, .reg x] => some (.ldDtVx x)
  | [.sound, .reg x] => some (.ldStVx x)
  | [.font, .reg x] => some (.ldF x)
  | [.bcd, .reg x] => some (.ldB x)
  | [.atIndex, .reg x] => some (.storeRegs x)
  | [.reg x, .atIndex] => some (.loadRegs x)
  | _ => none

/-- JMP nnn and JMP V0, nnn (R75). -/
def assembleJmp : List Operand → Option Instr
  | [.imm n] => (addressImm n).map fun a => .jmp a
  | [.reg x, .imm n] => if x = 0 then (addressImm n).map fun a => .jmpV0 a else none
  | _ => none

/-- A mnemonic whose operands are a register and a byte. -/
def assembleXK (f : Nibble → Byte → Instr) : List Operand → Option Instr
  | [.reg x, .imm n] => (byteImm n).map fun kk => f x kk
  | _ => none

/-- A mnemonic whose operands are two registers. -/
def assembleXY (f : Nibble → Nibble → Instr) : List Operand → Option Instr
  | [.reg x, .reg y] => some (f x y)
  | _ => none

/-- The instruction a line of assembly names; `JP` is accepted for JMP, and there are no pseudo-instructions
(R78). SYS with a low byte of 0xE0 or 0xEE is no instruction of R75. -/
def assemble (mnemonic : String) (ops : List Operand) : Option Instr :=
  if mnemonic = "SYS" then
    match ops with
    | [.imm n] => ((addressImm n).map fun a => Instr.sys a).filter Instr.wellFormed
    | _ => none
  else if mnemonic = "CLS" then (if ops = [] then some (.cls 0) else none)
  else if mnemonic = "RET" then (if ops = [] then some (.ret 0) else none)
  else if mnemonic = "JMP" ∨ mnemonic = "JP" then assembleJmp ops
  else if mnemonic = "CALL" then
    match ops with
    | [.imm n] => (addressImm n).map fun a => .call a
    | _ => none
  else if mnemonic = "SE" then (assembleXK .seImm ops).or (assembleXY (fun x y => .seReg x y 0) ops)
  else if mnemonic = "SNE" then (assembleXK .sneImm ops).or (assembleXY (fun x y => .sneReg x y 0) ops)
  else if mnemonic = "LD" then assembleLd ops
  else if mnemonic = "ADD" then
    match ops with
    | [.index, .reg x] => some (.addI x)
    | _ => (assembleXK .addImm ops).or (assembleXY .addReg ops)
  else if mnemonic = "OR" then assembleXY .orReg ops
  else if mnemonic = "AND" then assembleXY .andReg ops
  else if mnemonic = "XOR" then assembleXY .xorReg ops
  else if mnemonic = "SUB" then assembleXY .subReg ops
  else if mnemonic = "SUBN" then assembleXY .subn ops
  else if mnemonic = "SHR" then assembleXY .shr ops
  else if mnemonic = "SHL" then assembleXY .shl ops
  else if mnemonic = "RND" then assembleXK .rnd ops
  else if mnemonic = "DRW" then
    match ops with
    | [.reg x, .reg y, .imm n] => (nibbleImm n).map fun k => .drw x y k
    | _ => none
  else if mnemonic = "SKP" then
    match ops with
    | [.reg x] => some (.skp x)
    | _ => none
  else if mnemonic = "SKNP" then
    match ops with
    | [.reg x] => some (.sknp x)
    | _ => none
  else none

/-- The spelling an assembler writes: ignored bits are 0 (00E0, 00EE, 5xy0, 9xy0). -/
def canonicalSpelling : Instr → Instr
  | .cls _ => .cls 0
  | .ret _ => .ret 0
  | .seReg x y _ => .seReg x y 0
  | .sneReg x y _ => .sneReg x y 0
  | i => i

/-- A program image: the words of the instructions as a flat byte string, high bytes first (R79). -/
def programImage (is : List Instr) : List Byte := is.flatMap encodeBytes

end Sys2Proof.Machine
end

