-- ==== Sys2Proof/Machine/Reset.lean ====
section
/-! DEFINITION. Construction of an engine from its parameters (spec/70_reset_and_hazards.md R260, R261;
spec/00_scope.md R5). -/

namespace Sys2Proof.Machine

/-- The construction parameters (R5, R260), with the defaults the spec states for the open ones. -/
structure Params where
  rom : List Byte
  useOriginalShiftInstructions : Bool
  enableClipping : Bool
  font : Vector Byte 80 := defaultFont
  memFill : Byte := defaultMemFill
  sysMode : SysMode := .nop
  deriving DecidableEq, Repr

/-- for a in 0 .. n - 1: M[a] <- fill (R260). -/
def fillMemory (fill : Byte) (m : Memory) : Nat → Memory
  | 0 => m
  | n + 1 => (fillMemory fill m n).write n fill

/-- for k in 0 ..: M[a + k] <- bytes[k] (R260). -/
def copyBytes (m : Memory) (a : Nat) : List Byte → Memory
  | [] => m
  | b :: rest => copyBytes (m.write a b) (a + 1) rest

/-- The memory that Reset leaves: fill, font, then the ROM verbatim (R260, R58). -/
def resetMemory (p : Params) : Memory :=
  copyBytes (copyBytes (fillMemory p.memFill [] Config.memSize) 0 p.font.toList) Config.loadAddress p.rom

/-- Reset(rom, cfg_shift, cfg_clip): none is a construction failure, no engine exists (R260, R261). -/
def State.construct (p : Params) : Option State :=
  if Config.maxRom < p.rom.length then none
  else some { State.reset with
    mem := resetMemory p
    useOriginalShiftInstructions := p.useOriginalShiftInstructions
    enableClipping := p.enableClipping
    sysMode := p.sysMode }

end Sys2Proof.Machine
end

