-- ==== Sys2Proof/Safety.lean ====
section
/-! DEFINITION. The terms claims are stated in: what two states share, which instructions touch what, and the
invariants of the machine. -/

namespace Sys2Proof.Machine

/-! ## What two states share (t after, s before) -/

/-- Every byte of memory reads as before. -/
def sameMemory (s t : State) : Prop := ∀ a, t.readByte a = s.readByte a

/-- Every byte outside the n bytes from base reads as before. -/
def sameMemoryOutside (base n : Nat) (s t : State) : Prop :=
  ∀ a, a < base ∨ base + n ≤ a → t.readByte a = s.readByte a

/-- V0 to VF are as before, but for the listed ones. -/
def sameVExcept (changed : List Nibble) (s t : State) : Prop :=
  ∀ r, r ∉ changed → t.getV r = s.getV r

/-- The stack and its pointer are as before (R24). -/
def sameStack (s t : State) : Prop := t.stack = s.stack ∧ t.sp = s.sp

/-- DT and ST are as before (R26). -/
def sameTimers (s t : State) : Prop := t.dt = s.dt ∧ t.st = s.st

/-- The configuration of R29 and SYS_MODE are as before. -/
def sameConfig (s t : State) : Prop :=
  t.useOriginalShiftInstructions = s.useOriginalShiftInstructions ∧
    t.enableClipping = s.enableClipping ∧ t.sysMode = s.sysMode

/-- Everything no instruction touches in its execute step: the configuration, the redraw logic's counter
and output, the run state, and the environment. -/
def sameControl (s t : State) : Prop :=
  sameConfig s t ∧ t.redrawCtr = s.redrawCtr ∧ t.redraw = s.redraw ∧ t.run = s.run ∧
    t.env = s.env ∧ t.envSeq = s.envSeq

/-- The framebuffer, the draw flag, the stack, the timers and the control state are as before. -/
def sameOther (s t : State) : Prop :=
  t.fb = s.fb ∧ t.draw = s.draw ∧ sameStack s t ∧ sameTimers s t ∧ sameControl s t

/-- Everything but the listed V registers and PC is as before. -/
def onlyVAndPc (changed : List Nibble) (s t : State) : Prop :=
  sameVExcept changed s t ∧ t.i = s.i ∧ sameMemory s t ∧ sameOther s t

/-- Everything but PC is as before. -/
def onlyPc (s t : State) : Prop := onlyVAndPc [] s t

/-- Everything but I and PC is as before. -/
def onlyIAndPc (s t : State) : Prop := sameVExcept [] s t ∧ sameMemory s t ∧ sameOther s t

/-- V, I, memory, the framebuffer, the draw flag, the timers and the control state are as before: all but the
stack and PC. -/
def onlyStackAndPc (s t : State) : Prop :=
  sameVExcept [] s t ∧ t.i = s.i ∧ sameMemory s t ∧ t.fb = s.fb ∧ t.draw = s.draw ∧ sameTimers s t ∧
    sameControl s t

/-- Nothing changed but what a new slot of the environment brings and the two timers. -/
def onlyTimersAndEnv (s t : State) : Prop :=
  t = { s with dt := t.dt, st := t.st, env := t.env, envSeq := t.envSeq }

/-! ## Encoding rows, faulting -/

/-- The instruction's word lies in the row with this match and mask (R75) and decodes to the instruction. -/
def inRow (i : Instr) (bits mask : Word) : Prop := encode i &&& mask = bits ∧ decode (encode i) = .ok i

/-- The instruction ends in the fault of R231: nothing changes but the run state, which records the cause,
the instruction's address, its word and the info. -/
def faults (i : Instr) (s : State) (c : Cause) (info : Nat) : Prop :=
  exec i s = .next { s with run := .halted (.fault c s.pc (encode i) info) }

/-- The engine is running and its next step is a cycle without a quit request. -/
def cycleDue (s : State) : Prop :=
  s.env.agent = .cycle ∧ s.run = .running ∧ s.env.quit = false

/-- The two bytes at PC can be fetched and decode to i (R54, R74). -/
def fetches (s : State) (i : Instr) : Prop :=
  s.pc.toNat ≤ 0xFFE ∧
    decodeBytes [s.readByte s.pc.toNat, s.readByte (s.pc.toNat + 1)] = .ok (i, [])

/-- A fault of cause c is what the instruction raises in s (R240 lists which can). -/
def canRaise (i : Instr) (c : Cause) : Bool :=
  match i, c with
  | .sys _, .sysUnsupported => true
  | .call _, .stackOverflow => true
  | .ret _, .stackUnderflow => true
  | .skp _, .keyRange => true
  | .sknp _, .keyRange => true
  | .drw _ _ _, .memRange => true
  | .ldB _, .memRange => true
  | .storeRegs _, .memRange => true
  | .loadRegs _, .memRange => true
  | _, _ => false

/-- The PC actions each instruction can return, as R106 lists them: whether `target` is one of the
PC values they give. -/
def pcAllowed (i : Instr) (s : State) (target : Word) : Prop :=
  match i with
  | .seImm _ _ | .sneImm _ _ | .seReg _ _ _ | .sneReg _ _ _ | .skp _ | .sknp _ =>
    target = s.pc + 2 ∨ target = s.pc + 4
  | .ret _ => ∃ h : 0 < s.sp.val, target = s.stack[s.sp.val - 1] + 2
  | .jmp nnn => target.toNat = nnn.toNat
  | .call nnn => target.toNat = nnn.toNat
  | .jmpV0 nnn => target.toNat = nnn.toNat + (s.getV 0).toNat
  | .ldVxK _ => target = s.pc + 2 ∨ target = s.pc
  | .sys _ | .cls _ | .ldImm _ _ | .addImm _ _ | .ldReg _ _ | .orReg _ _ | .andReg _ _ | .xorReg _ _
  | .addReg _ _ | .subReg _ _ | .shr _ _ | .subn _ _ | .shl _ _ | .ldI _ | .rnd _ _ | .drw _ _ _
  | .ldVxDt _ | .ldDtVx _ | .ldStVx _ | .addI _ | .ldF _ | .ldB _ | .storeRegs _ | .loadRegs _ =>
    target = s.pc + 2

/-! ## Which instructions touch what -/

/-- The instructions that write I (R23). -/
def writesI : Instr → Bool
  | .ldI _ | .addI _ | .ldF _ | .storeRegs _ | .loadRegs _ => true
  | _ => false

/-- The instructions that write the framebuffer (R28). -/
def writesFb : Instr → Bool
  | .cls _ | .drw _ _ _ => true
  | _ => false

/-- The instructions that touch the stack (R24). -/
def touchesStack : Instr → Bool
  | .call _ | .ret _ => true
  | _ => false

/-- The bytes an instruction stores to: the first address and how many (R50). -/
def storedRange (i : Instr) (s : State) : Nat × Nat :=
  match i with
  | .ldB _ => (s.i.toNat, 3)
  | .storeRegs x => (s.i.toNat, x.toNat + 1)
  | _ => (0, 0)

/-- The V registers an instruction may write: its destination, VF for a flag producer (R21), V0 to Vx for
Fx65. -/
def mayWriteV (i : Instr) (r : Nibble) : Prop :=
  match i with
  | .ldImm x _ | .addImm x _ | .ldReg x _ | .rnd x _ | .ldVxDt x | .ldVxK x => r = x
  | .orReg x _ | .andReg x _ | .xorReg x _ | .addReg x _ | .subReg x _ | .shr x _ | .subn x _ | .shl x _ =>
    r = x ∨ r = 0xF
  | .drw _ _ _ => r = 0xF
  | .loadRegs x => r.toNat ≤ x.toNat
  | _ => False

/-! ## Sprites -/

/-- Screen pixel (pr, pc) is where some set sprite pixel lands: row byte `row r`, r < n, column c < 8, which
is bit 7 - c of the byte (R191), drawn at (cx + c, cy + r), clipped (R193) or wrapped (R194). -/
abbrev covers (clip : Bool) (cx cy : Nat) (row : Nat → Byte) (n : Nat) (pr pc : Nat) : Prop :=
  ∃ r, r < n ∧ ∃ c, c < 8 ∧ (row r).getLsbD (7 - c) = true ∧
    (clip = true → cx + c ≤ 63 ∧ cy + r ≤ 31) ∧ (cx + c) % 64 = pc ∧ (cy + r) % 32 = pr

/-- `covers` for Dxyn in state s (R191, R192). -/
abbrev spriteCovers (s : State) (x y n : Nibble) (pr : Fin 32) (pc : Fin 64) : Prop :=
  covers s.enableClipping ((s.getV x).toNat % 64) ((s.getV y).toNat % 32)
    (fun r => s.readByte (s.i.toNat + r)) n.toNat pr.val pc.val

/-! ## Invariants -/

/-- Memory is in its canonical form. -/
def memoryInv (s : State) : Prop := s.mem.wf = true

/-- PC never exceeds 0x10FE, and no stack entry exceeds 0xFFE, the last address that can be fetched
(R105, R54). -/
def pcBoundInv (s : State) : Prop :=
  s.pc.toNat ≤ 0x10FE ∧ ∀ k (h : k < 16), (s.stack[k]).toNat ≤ 0xFFE

/-- The redraw counter is 0 to 99 (R31), it is 0 after a cycle with `redraw` = 1, and a draw cycle has
`redraw` = 1 (R108). -/
def redrawInv (s : State) : Prop :=
  s.redrawCtr.toNat ≤ 99 ∧ (s.redraw = true → s.redrawCtr = 0) ∧ (s.draw = true → s.redraw = true)

/-- The fault record of a halted engine is true of its state: it names the engine's own PC, and its word
and info are what R230 says for its cause. -/
def haltRecordInv (s : State) : Prop :=
  match s.run with
  | .running => True
  | .halted .quit => True
  | .halted (.fault c pc w info) =>
    pc = s.pc ∧
    match c with
    | .fetchRange => w = 0 ∧ 0xFFE < s.pc.toNat ∧ info = s.pc.toNat
    | .decode => s.fetch = some w ∧ isIllegal w = true ∧ info = w.toNat
    | .memRange => s.fetch = some w ∧ 0xFFF < info ∧ info = max s.i.toNat 0x1000
    | .stackOverflow => s.fetch = some w ∧ s.sp = 16 ∧ info = 16
    | .stackUnderflow => s.fetch = some w ∧ s.sp = 0 ∧ info = 0
    | .keyRange => s.fetch = some w ∧ 15 < info ∧ info = (s.getV (fieldX w)).toNat
    | .sysUnsupported => s.fetch = some w ∧ s.sysMode = .fault ∧ info = w.toNat

end Sys2Proof.Machine
end

