-- ==== Sys2Proof/Certificates/Slice0/Obligations.lean ====
section
/-! DEFINITION. The statements for the provers, from the numbered rules of spec/. No statement rests on the
environment's slot at reset (log 2) or on any value of `Config.envSlot` (log 1). -/

open Sys2Proof Sys2Proof.Machine

/-! ## Encoding and decoding (30_encoding.md) -/

/-- Every well-formed instruction's word decodes to it, with every operand at every value, the ignored bits of
D13 among them (log 8). -/
def Obligations.DecodeEncodeRoundTrip : Prop :=
  ∀ i : Instr, i.wellFormed = true → decode (encode i) = .ok i

/-- Every word that decodes is the word of the well-formed instruction it decodes to: no bit is dropped, since
the model keeps the ignored bits of D13 (log 8). -/
def Obligations.EncodeDecodeRoundTrip : Prop :=
  ∀ (w : Word) (i : Instr), decode w = .ok i → encode i = w ∧ i.wellFormed = true

/-- The illegal words are exactly the lists of R76; every other word is an instruction. -/
def Obligations.IllegalWordsAreExactlyThoseListed : Prop :=
  ∀ w : Word, (isIllegal w = true → decode w = .error (.illegal w)) ∧
    (isIllegal w = false → ∃ i, decode w = .ok i)

/-- The decoder selects rows as R75's match and mask columns say: a decoded word selects its instruction's
row, the rows are mutually exclusive but for row 1 (SYS), and an illegal word selects no row. What the rows
ignore is the spec's decision (D13). -/
def Obligations.DecoderFollowsTheOpcodeMap : Prop :=
  ∀ w : Word,
    (∀ i, decode w = .ok i → (opcodeRow i).selectedBy w = true ∧
      ∀ j, (opcodeRow j).selectedBy w = true → opcodeRow j = opcodeRow i ∨ opcodeRow j = ⟨0x0000, 0xF000⟩) ∧
    (∀ e, decode w = .error e → ∀ j, (opcodeRow j).selectedBy w = false)

/-- The words of the spec's decode vectors (95_test_vectors.md section 2.1), and words of the other families, so that
each of the sixteen families has one; the operands of the added words differ, so they show where each field stands
(R72, R75; D13, D22). -/
def Obligations.ListedWordsDecode : Prop :=
  decode 0x0000 = .ok (.sys 0x000) ∧ decode 0x0123 = .ok (.sys 0x123) ∧
  decode 0x00E0 = .ok (.cls 0) ∧ decode 0x01E0 = .ok (.cls 1) ∧ decode 0x00EE = .ok (.ret 0) ∧
  decode 0x5121 = .ok (.seReg 1 2 1) ∧ decode 0x912F = .ok (.sneReg 1 2 0xF) ∧
  decode 0x8008 = .error (.illegal 0x8008) ∧ decode 0x800E = .ok (.shl 0 0) ∧
  decode 0x800F = .error (.illegal 0x800F) ∧ decode 0xE09E = .ok (.skp 0) ∧
  decode 0xE0A0 = .error (.illegal 0xE0A0) ∧ decode 0xF165 = .ok (.loadRegs 1) ∧
  decode 0xF0FF = .error (.illegal 0xF0FF) ∧ decode 0xFFFF = .error (.illegal 0xFFFF) ∧
  decode 0x1ABC = .ok (.jmp 0xABC) ∧ decode 0x6A2F = .ok (.ldImm 0xA 0x2F) ∧
  decode 0xA2F0 = .ok (.ldI 0x2F0) ∧ decode 0xD125 = .ok (.drw 1 2 5) ∧
  decode 0x2401 = .ok (.call 0x401) ∧ decode 0x3342 = .ok (.seImm 3 0x42) ∧
  decode 0x4342 = .ok (.sneImm 3 0x42) ∧ decode 0x7103 = .ok (.addImm 1 3) ∧
  decode 0x8124 = .ok (.addReg 1 2) ∧ decode 0xB300 = .ok (.jmpV0 0x300) ∧
  decode 0xC10F = .ok (.rnd 1 0x0F) ∧ decode 0xE59E = .ok (.skp 5)

/-- An instruction's two bytes stand high byte first and decode to it, whatever follows (R70, R79). -/
def Obligations.InstructionBytesAreBigEndian : Prop :=
  ∀ (i : Instr) (rest : List Byte), i.wellFormed = true →
    decodeBytes (encodeBytes i ++ rest) = .ok (i, rest) ∧
    ∃ hi lo : Byte, encodeBytes i = [hi, lo] ∧ (encode i).toNat = hi.toNat * 256 + lo.toNat

/-- The notation of R78 names every instruction: assembling the mnemonic and operands of an instruction gives
it, in the spelling whose ignored bits are 0. The syntax is the spec's own choice (D26). -/
def Obligations.AssemblyNamesTheInstruction : Prop :=
  ∀ i : Instr, i.wellFormed = true → assemble (mnemonicOf i) (operandsOf i) = some (canonicalSpelling i)

/-! ## The step (40_cycle.md, 60_exceptions.md) -/

/-- When the bytes at PC decode to i, the step of a due cycle is exec of i with the draw flag cleared; a
completed instruction gets the redraw update, a halted one leaves the cycle's start but for the run
state; then the environment gives its next slot. The slot is the model's own (log 1). -/
def Obligations.StepRunsTheDecodedInstruction : Prop :=
  ∀ (s : State) (i : Instr), cycleDue s → fetches s i →
    step s =
      match exec i { s with draw := false } with
      | .next t =>
        if t.run = .running then .next t.redrawUpdate.serveEnv
        else .next { s with run := t.run }.serveEnv
      | .fault f => .fault f
      | .refused r => .refused r

/-- A fault of the instruction halts the engine precisely: the state at the cycle's start but for the run
state's record (R231; D14). The environment's slot is the model's own (log 1). -/
def Obligations.InstructionFaultHaltsPrecisely : Prop :=
  ∀ (s : State) (i : Instr) (c : Cause) (info : Nat), cycleDue s → fetches s i →
    faults i { s with draw := false } c info →
    step s = .next { s with run := .halted (.fault c s.pc (encode i) info) }.serveEnv

/-- A fetch with PC above 0xFFE halts with FetchRange(PC) and word 0 (R54, R231; D6). The slot is the
model's own (log 1). -/
def Obligations.FetchAboveTheLastWordHalts : Prop :=
  ∀ s : State, cycleDue s → 0xFFE < s.pc.toNat →
    step s = .next { s with run := .halted (.fault .fetchRange s.pc 0 s.pc.toNat) }.serveEnv

/-- Decode(w) is raised when the fetched word matches no row of R75, which is when it is one of the words of R76,
after the fetch and before any execution, and for no other word (R232). The record and the otherwise unchanged
state are R231's (D14). The slot is the model's own (log 1). -/
def Obligations.DecodeFaultExactlyOnIllegalWords : Prop :=
  ∀ s : State, cycleDue s → s.pc.toNat ≤ 0xFFE →
    (isIllegal s.wordAtPc = true ↔ ∀ j, (opcodeRow j).selectedBy s.wordAtPc = false) ∧
    (isIllegal s.wordAtPc = true →
      step s = .next { s with run := .halted (.fault .decode s.pc s.wordAtPc s.wordAtPc.toNat) }.serveEnv) ∧
    (isIllegal s.wordAtPc = false →
      ∃ t, step s = .next t ∧ ∀ pc w info, t.run ≠ .halted (.fault .decode pc w info))

/-- A quit request at the start of a cycle halts the engine without a fetch, whatever stands at PC; all other
state is as before (R239; D20). The slot is the model's own (log 1). -/
def Obligations.QuitHaltsBeforeTheFetch : Prop :=
  ∀ s : State, s.env.agent = .cycle → s.run = .running → s.env.quit = true →
    step s = .next { s with run := .halted .quit }.serveEnv

/-- A halted engine has no cycle step (R101, R231); the model answers a fault of its own there (log 7). -/
def Obligations.HaltedEngineHasNoCycle : Prop :=
  ∀ (s : State) (r : HaltReason), s.env.agent = .cycle → s.run = .halted r → step s = .fault (.halted r)

/-- A tick decrements each timer by one, floored at 0, in any run state, and touches nothing else of the
engine. The new slot of the environment is the model's own (log 1). -/
def Obligations.TickDecrementsTheTimersOnly : Prop :=
  ∀ s : State, s.env.agent = .timer →
    ∃ t, step s = .next t ∧ t.dt.toNat = s.dt.toNat - 1 ∧ t.st.toNat = s.st.toNat - 1 ∧ onlyTimersAndEnv s t

/-- The redraw logic: a completed cycle with draw = 1 resets the counter and redraws; without it the counter
grows, and on reaching 100 it is reset with a forced redraw; a quit or faulted cycle updates neither;
and 100 cycles from counter 0 whose instructions are not DRW give redraw = 0 ninety-nine times, then 1, whatever
the environment's slots are and however many ticks fall between them. What `redraw` shows after a quit or a
fault is the model's choice (log 6). -/
def Obligations.RedrawLogicFollowsTheRule : Prop :=
  (∀ (s : State) (i : Instr) (t : State), cycleDue s → fetches s i → s.redrawCtr.toNat ≤ 99 →
    exec i { s with draw := false } = .next t → t.run = .running →
    ∃ u, step s = .next u ∧
      (t.draw = true → u.redrawCtr = 0 ∧ u.redraw = true) ∧
      (t.draw = false → s.redrawCtr.toNat = 99 → u.redrawCtr = 0 ∧ u.redraw = true) ∧
      (t.draw = false → s.redrawCtr.toNat < 99 →
        u.redrawCtr.toNat = s.redrawCtr.toNat + 1 ∧ u.redraw = false)) ∧
  (∀ s t : State, s.env.agent = .cycle → step s = .next t → t.run ≠ .running →
    t.redrawCtr = s.redrawCtr ∧ t.redraw = s.redraw) ∧
  (∀ (f : Nat → State) (i : Nat → Instr), (f 0).redrawCtr = 0 →
    (∀ k, k < 100 → cycleDue (f k) ∧ fetches (f k) (i k) ∧ (∀ x y n, i k ≠ .drw x y n) ∧
      ∃ u, step (f k) = .next u ∧ u.run = .running ∧ onlyTimersAndEnv u (f (k + 1))) →
    ∀ k, 1 ≤ k → k ≤ 100 → (f k).redraw = decide (k = 100) ∧ (f k).redrawCtr.toNat = k % 100)

/-! ## Rules over every instruction -/

/-- Every instruction either keeps the run state, or ends in a fault that R240 lists for it, and then nothing
else changes (R231). -/
def Obligations.InstructionsCompleteOrFaultAsListed : Prop :=
  ∀ (i : Instr) (s : State), ∃ t, exec i s = .next t ∧
    (t.run = s.run ∨
      ∃ c info, canRaise i c = true ∧ t = { s with run := .halted (.fault c s.pc (encode i) info) })

/-- In a running engine a completed instruction's PC is one that its PC actions in R106 give, and a faulting
one does not move PC (D14). Sums wrap modulo 2^16 (D8). -/
def Obligations.PcMovesOnlyByThePcActions : Prop :=
  ∀ (i : Instr) (s t : State), s.run = .running → exec i s = .next t →
    (t.run = .running → pcAllowed i s t.pc) ∧ (t.run ≠ .running → t.pc = s.pc)

/-- Only CALL and RET touch the stack (R24). -/
def Obligations.OnlyCallAndRetTouchTheStack : Prop :=
  ∀ (i : Instr) (s t : State), exec i s = .next t → touchesStack i = false → sameStack s t

/-- I is written by Annn, Fx1E, Fx29, Fx55 and Fx65, and by nothing else (R23). -/
def Obligations.OnlyListedInstructionsWriteI : Prop :=
  ∀ (i : Instr) (s t : State), exec i s = .next t → writesI i = false → t.i = s.i

/-- Only CLS and DRW write the framebuffer (R28). -/
def Obligations.OnlyClsAndDrwWriteTheFramebuffer : Prop :=
  ∀ (i : Instr) (s t : State), exec i s = .next t → writesFb i = false → t.fb = s.fb

/-- Among the instructions, only Fx15 writes DT and only Fx18 writes ST (R26). -/
def Obligations.OnlyFx15AndFx18WriteTheTimers : Prop :=
  ∀ (i : Instr) (s t : State), exec i s = .next t →
    ((∀ x, i ≠ .ldDtVx x) → t.dt = s.dt) ∧ ((∀ x, i ≠ .ldStVx x) → t.st = s.st)

/-- Only DRW sets the draw flag (R30, R107; for CLS the spec's decision D16). -/
def Obligations.OnlyDrwSetsTheDrawFlag : Prop :=
  ∀ (i : Instr) (s t : State), exec i s = .next t → (∀ x y n, i ≠ .drw x y n) → t.draw = s.draw

/-- No instruction changes a byte of memory outside the bytes it stores to: three at I for Fx33, x + 1 at I for
Fx55, none for every other (R50). -/
def Obligations.MemoryChangesOnlyWhereStored : Prop :=
  ∀ (i : Instr) (s t : State), exec i s = .next t →
    sameMemoryOutside (storedRange i s).1 (storedRange i s).2 s t

/-- No instruction changes a V register but its destination, VF as a flag, or V0 to Vx for Fx65 (R20, R21). -/
def Obligations.RegistersChangeOnlyAsListed : Prop :=
  ∀ (i : Instr) (s t : State), exec i s = .next t → ∀ r, ¬ mayWriteV i r → t.getV r = s.getV r

/-- No step changes the configuration (R29) or SYS_MODE (R5). -/
def Obligations.ConfigurationIsReadOnly : Prop :=
  ∀ s t : State, step s = .next t → sameConfig s t

/-- No instruction reads ST (R26): but for Fx18, which writes it, another ST changes nothing but ST. -/
def Obligations.NoInstructionReadsTheSoundTimer : Prop :=
  ∀ (i : Instr) (s : State) (b : Byte), (∀ x, i ≠ .ldStVx x) →
    ∃ t, exec i s = .next t ∧ exec i { s with st := b } = .next { t with st := b }

/-- A program cannot read the redraw counter (R31) or the output `redraw`: other values change nothing else. -/
def Obligations.ProgramsCannotReadTheRedrawLogic : Prop :=
  ∀ (i : Instr) (s : State) (c : BitVec 7) (r : Bool),
    ∃ t, exec i s = .next t ∧
      exec i { s with redrawCtr := c, redraw := r } = .next { t with redrawCtr := c, redraw := r }

/-- A tick before an instruction that makes no timer access (any but Fx07, Fx15, Fx18) has the effect of a tick
after it (R218). -/
def Obligations.TicksCommuteWithOtherInstructions : Prop :=
  ∀ (i : Instr) (s : State), (∀ x, i ≠ .ldVxDt x) → (∀ x, i ≠ .ldDtVx x) → (∀ x, i ≠ .ldStVx x) →
    ∃ t, exec i s = .next t ∧ exec i s.tick = .next t.tick

/-- A halted engine stays halted with everything but DT and ST as it was; only ticks are steps of it (R231,
R218). -/
def Obligations.HaltIsFinal : Prop :=
  ∀ (s t : State) (r : HaltReason), s.run = .halted r → step s = .next t →
    t.run = .halted r ∧ onlyTimersAndEnv s t ∧ t.dt.toNat = s.dt.toNat - 1 ∧ t.st.toNat = s.st.toNat - 1

/-! ## Invariants -/

/-- Every step keeps memory in its canonical form. The form is the model's own (log 5). -/
def Obligations.StepKeepsMemoryCanonical : Prop :=
  ∀ s t : State, memoryInv s → step s = .next t → memoryInv t

/-- Every step keeps PC at most 0x10FE and every stack entry at most 0xFFE (R105; the fetch bound is D6, the unmasked
Bnnn D28). -/
def Obligations.StepKeepsPcBound : Prop :=
  ∀ s t : State, pcBoundInv s → step s = .next t → pcBoundInv t

/-- Every step keeps the redraw counter in 0..99 (R31, R108), and it keeps the counter 0 whenever `redraw` is 1 and
`redraw` 1 whenever the draw flag is. A cycle makes these two true (R108); that they outlast ticks, quits and
faults is the model's choice of what the port then shows (log 6) and of the draw flag a halt leaves (log 15). -/
def Obligations.StepKeepsRedrawCounterInRange : Prop :=
  ∀ s t : State, redrawInv s → step s = .next t → redrawInv t

/-- Every step keeps the fault record true of the halted engine's state: PC, word and info are what R230 and
R231 say for the cause (the spec's decisions D5, D6, D9, D10, D12, D14). -/
def Obligations.StepKeepsFaultRecordTrue : Prop :=
  ∀ s t : State, haltRecordInv s → step s = .next t → haltRecordInv t

/-- The state after reset meets every invariant. Its `redraw` is the model's choice (log 6). -/
def Obligations.ResetMeetsEveryInvariant : Prop :=
  memoryInv State.reset ∧ pcBoundInv State.reset ∧ redrawInv State.reset ∧ haltRecordInv State.reset

/-! ## Reset (10_state.md R35, 70_reset_and_hazards.md) -/

/-- What reset leaves: PC = 0x200 and a blank screen are the source's; the zeros of V, I, SP, S, DT, ST (D2, log
4), of the counter and the draw flag (D19), MEM_FILL (D3) and the font (D4; log 5), and the run state
(D14) are the spec's decisions. -/
def Obligations.ResetStateIsAsListed : Prop :=
  State.reset.pc = 0x200 ∧ (∀ r c, State.reset.fb.pixel r c = false) ∧
  (∀ r, State.reset.getV r = 0) ∧ State.reset.i = 0 ∧ State.reset.sp = 0 ∧
  (∀ k (h : k < 16), State.reset.stack[k] = 0) ∧ State.reset.dt = 0 ∧ State.reset.st = 0 ∧
  State.reset.redrawCtr = 0 ∧ State.reset.draw = false ∧ State.reset.run = .running ∧
  (∀ a, 80 ≤ a → State.reset.readByte a = 0) ∧
  (List.range 80).map State.reset.readByte =
    [0xF0, 0x90, 0x90, 0x90, 0xF0] ++ [0x20, 0x60, 0x20, 0x20, 0x70] ++
    [0xF0, 0x10, 0xF0, 0x80, 0xF0] ++ [0xF0, 0x10, 0xF0, 0x10, 0xF0] ++
    [0x90, 0x90, 0xF0, 0x10, 0x10] ++ [0xF0, 0x80, 0xF0, 0x10, 0xF0] ++
    [0xF0, 0x80, 0xF0, 0x90, 0xF0] ++ [0xF0, 0x10, 0x20, 0x40, 0x40] ++
    [0xF0, 0x90, 0xF0, 0x90, 0xF0] ++ [0xF0, 0x90, 0xF0, 0x10, 0xF0] ++
    [0xF0, 0x90, 0xF0, 0x90, 0x90] ++ [0xE0, 0x90, 0xE0, 0x90, 0xE0] ++
    [0xF0, 0x80, 0x80, 0x80, 0xF0] ++ [0xE0, 0x90, 0x90, 0x90, 0xE0] ++
    [0xF0, 0x80, 0xF0, 0x80, 0xF0] ++ [0xF0, 0x80, 0xF0, 0x80, 0x80]

/-- Construction: a ROM of at most 3584 bytes gives an engine whose memory is the font, the ROM verbatim at 0x200
and MEM_FILL elsewhere, in canonical form, and whose other state is reset's with the construction
parameters; a longer ROM gives no engine (R260, R261). -/
def Obligations.ConstructionLoadsTheImage : Prop :=
  ∀ p : Params,
    (p.rom.length ≤ 3584 → ∃ s, State.construct p = some s ∧
      (∀ a (h : 0x200 ≤ a ∧ a - 0x200 < p.rom.length), s.readByte a = p.rom[a - 0x200]) ∧
      (∀ a (h : a < 80), s.readByte a = p.font[a]) ∧
      (∀ a, a < 4096 → 80 ≤ a → (a < 0x200 ∨ 0x200 + p.rom.length ≤ a) → s.readByte a = p.memFill) ∧
      memoryInv s ∧
      s = { State.reset with
              mem := s.mem
              useOriginalShiftInstructions := p.useOriginalShiftInstructions
              enableClipping := p.enableClipping
              sysMode := p.sysMode }) ∧
    (3584 < p.rom.length → State.construct p = none)

/-! ## ALU and register moves (42_alu.md) -/

/-- 8xy1, 8xy2, 8xy3: the bitwise result in Vx, then VF = 0, always; PC advances and nothing else changes. -/
def Obligations.LogicOperationsZeroVf : Prop :=
  ∀ (x y : Nibble) (s : State),
    inRow (.orReg x y) 0x8001 0xF00F ∧ inRow (.andReg x y) 0x8002 0xF00F ∧
    inRow (.xorReg x y) 0x8003 0xF00F ∧
    (∃ t, exec (.orReg x y) s = .next t ∧ (x ≠ 0xF → t.getV x = s.getV x ||| s.getV y) ∧ t.getV 0xF = 0 ∧
      t.pc = s.pc + 2 ∧ onlyVAndPc [x, 0xF] s t) ∧
    (∃ t, exec (.andReg x y) s = .next t ∧ (x ≠ 0xF → t.getV x = s.getV x &&& s.getV y) ∧ t.getV 0xF = 0 ∧
      t.pc = s.pc + 2 ∧ onlyVAndPc [x, 0xF] s t) ∧
    (∃ t, exec (.xorReg x y) s = .next t ∧ (x ≠ 0xF → t.getV x = s.getV x ^^^ s.getV y) ∧ t.getV 0xF = 0 ∧
      t.pc = s.pc + 2 ∧ onlyVAndPc [x, 0xF] s t)

/-- 8xy4: the sum modulo 256 in Vx, then VF = 1 exactly when the sum exceeds 255. -/
def Obligations.AddRegGivesSumAndCarry : Prop :=
  ∀ (x y : Nibble) (s : State), inRow (.addReg x y) 0x8004 0xF00F ∧
    ∃ t, exec (.addReg x y) s = .next t ∧
      (x ≠ 0xF → (t.getV x).toNat = ((s.getV x).toNat + (s.getV y).toNat) % 256) ∧
      t.getV 0xF = (if 255 < (s.getV x).toNat + (s.getV y).toNat then 1 else 0) ∧
      t.pc = s.pc + 2 ∧ onlyVAndPc [x, 0xF] s t

/-- 8xy5 and 8xy7: the difference modulo 256 in Vx, then VF = NOT borrow with a strict comparison. -/
def Obligations.SubtractionsGiveDifferenceAndNotBorrow : Prop :=
  ∀ (x y : Nibble) (s : State),
    inRow (.subReg x y) 0x8005 0xF00F ∧ inRow (.subn x y) 0x8007 0xF00F ∧
    (∃ t, exec (.subReg x y) s = .next t ∧
      (x ≠ 0xF → (t.getV x).toNat = ((s.getV x).toNat + 256 - (s.getV y).toNat) % 256) ∧
      t.getV 0xF = (if (s.getV x).toNat > (s.getV y).toNat then 1 else 0) ∧
      t.pc = s.pc + 2 ∧ onlyVAndPc [x, 0xF] s t) ∧
    (∃ t, exec (.subn x y) s = .next t ∧
      (x ≠ 0xF → (t.getV x).toNat = ((s.getV y).toNat + 256 - (s.getV x).toNat) % 256) ∧
      t.getV 0xF = (if (s.getV y).toNat > (s.getV x).toNat then 1 else 0) ∧
      t.pc = s.pc + 2 ∧ onlyVAndPc [x, 0xF] s t)

/-- 8xy6 and 8xyE: the operand is Vy with useOriginalShiftInstructions and Vx without; Vx receives it shifted by
one, then VF the bit shifted out. -/
def Obligations.ShiftsFollowTheQuirk : Prop :=
  ∀ (x y : Nibble) (s : State),
    inRow (.shr x y) 0x8006 0xF00F ∧ inRow (.shl x y) 0x800E 0xF00F ∧
    ∀ a : Byte, a = (if s.useOriginalShiftInstructions = true then s.getV y else s.getV x) →
      (∃ t, exec (.shr x y) s = .next t ∧ (x ≠ 0xF → (t.getV x).toNat = a.toNat / 2) ∧
        (t.getV 0xF).toNat = a.toNat % 2 ∧ t.pc = s.pc + 2 ∧ onlyVAndPc [x, 0xF] s t) ∧
      (∃ t, exec (.shl x y) s = .next t ∧ (x ≠ 0xF → (t.getV x).toNat = a.toNat * 2 % 256) ∧
        (t.getV 0xF).toNat = a.toNat / 128 ∧ t.pc = s.pc + 2 ∧ onlyVAndPc [x, 0xF] s t)

/-- 6xkk, 7xkk, 8xy0: the immediate, the sum without a carry, the copy (R141 to R143; meanings of D22). -/
def Obligations.ImmediateLoadAddAndCopy : Prop :=
  ∀ (x y : Nibble) (kk : Byte) (s : State),
    (∃ t, exec (.ldImm x kk) s = .next t ∧ t.getV x = kk ∧ t.pc = s.pc + 2 ∧ onlyVAndPc [x] s t) ∧
    (∃ t, exec (.addImm x kk) s = .next t ∧ (t.getV x).toNat = ((s.getV x).toNat + kk.toNat) % 256 ∧
      t.pc = s.pc + 2 ∧ onlyVAndPc [x] s t) ∧
    (∃ t, exec (.ldReg x y) s = .next t ∧ t.getV x = s.getV y ∧ t.pc = s.pc + 2 ∧ onlyVAndPc [x] s t)

/-- Cxkk: the byte on port rnd AND kk, whatever that byte is (D21, log 1). -/
def Obligations.RndMasksTheRandomByte : Prop :=
  ∀ (x : Nibble) (kk : Byte) (s : State), inRow (.rnd x kk) 0xC000 0xF000 ∧
    ∃ t, exec (.rnd x kk) s = .next t ∧ t.getV x = s.env.rnd &&& kk ∧ t.pc = s.pc + 2 ∧ onlyVAndPc [x] s t

/-! ## Control flow (41_control_flow.md) -/

/-- 3xkk, 4xkk, 5xy0, 9xy0: PC + 4 when the condition holds, else PC + 2; nothing else changes (R125 to R128; D13,
D22). -/
def Obligations.SkipsCompareAsNamed : Prop :=
  ∀ (x y ign : Nibble) (kk : Byte) (s : State),
    (∃ t, exec (.seImm x kk) s = .next t ∧ t.pc = (if s.getV x = kk then s.pc + 4 else s.pc + 2) ∧ onlyPc s t) ∧
    (∃ t, exec (.sneImm x kk) s = .next t ∧ t.pc = (if s.getV x = kk then s.pc + 2 else s.pc + 4) ∧ onlyPc s t) ∧
    (∃ t, exec (.seReg x y ign) s = .next t ∧
      t.pc = (if s.getV x = s.getV y then s.pc + 4 else s.pc + 2) ∧ onlyPc s t) ∧
    (∃ t, exec (.sneReg x y ign) s = .next t ∧
      t.pc = (if s.getV x = s.getV y then s.pc + 2 else s.pc + 4) ∧ onlyPc s t)

/-- 1nnn and Bnnn: PC is nnn, and nnn + V0 not reduced to 12 bits (R122, R129; D22, D28). -/
def Obligations.JumpsGoToTheirTargets : Prop :=
  ∀ (nnn : Addr12) (s : State),
    (∃ t, exec (.jmp nnn) s = .next t ∧ t.pc.toNat = nnn.toNat ∧ onlyPc s t) ∧
    (∃ t, exec (.jmpV0 nnn) s = .next t ∧ t.pc.toNat = nnn.toNat + (s.getV 0).toNat ∧ onlyPc s t)

/-- 2nnn: below 16 entries it pushes its own address and jumps; at 16 it faults with StackOverflow (R123, R25;
D9). -/
def Obligations.CallPushesItsOwnAddress : Prop :=
  ∀ (nnn : Addr12) (s : State),
    (∀ h : s.sp.val < 16, ∃ t, exec (.call nnn) s = .next t ∧ t.pc.toNat = nnn.toNat ∧
      t.sp.val = s.sp.val + 1 ∧ t.stack[s.sp.val] = s.pc ∧
      (∀ k (hk : k < 16), k ≠ s.sp.val → t.stack[k] = s.stack[k]) ∧ onlyStackAndPc s t) ∧
    (s.sp.val = 16 → faults (.call nnn) s .stackOverflow 16)

/-- 00EE: with entries on the stack it pops one, does not clear it, and jumps two bytes past it; with none it
faults with StackUnderflow (R121, R25; D9). -/
def Obligations.RetReturnsPastTheCall : Prop :=
  ∀ (ign : Nibble) (s : State),
    (∀ h : 0 < s.sp.val, ∃ t, exec (.ret ign) s = .next t ∧ t.pc = s.stack[s.sp.val - 1] + 2 ∧
      t.sp.val = s.sp.val - 1 ∧ t.stack = s.stack ∧ onlyStackAndPc s t) ∧
    (s.sp.val = 0 → faults (.ret ign) s .stackUnderflow 0)

/-- A CALL at PC = a, then any code that leaves the stack balanced, then a RET: PC = a + 2 and SP as it was
(R124). -/
def Obligations.CallThenRetReturns : Prop :=
  ∀ (nnn : Addr12) (ign : Nibble) (s t u : State), s.sp.val < 16 → exec (.call nnn) s = .next t →
    u.sp = t.sp → (∀ k (h : k < 16), k < t.sp.val → u.stack[k] = t.stack[k]) →
    ∃ r, exec (.ret ign) u = .next r ∧ r.pc = s.pc + 2 ∧ r.sp = s.sp

/-- 0nnn: advances with SYS_MODE = nop, faults with SysUnsupported(w) with SYS_MODE = fault (R120; D12). -/
def Obligations.SysAdvancesOrFaults : Prop :=
  ∀ (nnn : Addr12) (s : State),
    (s.sysMode = .nop → ∃ t, exec (.sys nnn) s = .next t ∧ t.pc = s.pc + 2 ∧ onlyPc s t) ∧
    (s.sysMode = .fault → faults (.sys nnn) s .sysUnsupported nnn.toNat)

/-! ## Index register and memory (43_index_memory.md) -/

/-- Annn, Fx1E, Fx29: I is nnn, I + Vx modulo 2^16, and Vx * 5 unmasked; VF is not written (R170 to R172; D8, D22,
D23). -/
def Obligations.IndexRegisterWrites : Prop :=
  ∀ (nnn : Addr12) (x : Nibble) (s : State),
    (∃ t, exec (.ldI nnn) s = .next t ∧ t.i.toNat = nnn.toNat ∧ t.pc = s.pc + 2 ∧ onlyIAndPc s t) ∧
    (∃ t, exec (.addI x) s = .next t ∧ t.i.toNat = (s.i.toNat + (s.getV x).toNat) % 65536 ∧
      t.pc = s.pc + 2 ∧ onlyIAndPc s t) ∧
    (∃ t, exec (.ldF x) s = .next t ∧ t.i.toNat = (s.getV x).toNat * 5 ∧ t.pc = s.pc + 2 ∧ onlyIAndPc s t)

/-- Fx33: the decimal digits of Vx at I, I + 1, I + 2, every other byte as before; out of range it faults with the
lowest address above 0xFFF and stores nothing (R174, R53; D5). -/
def Obligations.BcdStoresThreeDigits : Prop :=
  ∀ (x : Nibble) (s : State),
    (s.i.toNat + 2 ≤ 0xFFF → ∃ t, exec (.ldB x) s = .next t ∧
      (t.readByte s.i.toNat).toNat = (s.getV x).toNat / 100 ∧
      (t.readByte (s.i.toNat + 1)).toNat = (s.getV x).toNat / 10 % 10 ∧
      (t.readByte (s.i.toNat + 2)).toNat = (s.getV x).toNat % 10 ∧
      sameMemoryOutside s.i.toNat 3 s t ∧ t.pc = s.pc + 2 ∧ t.i = s.i ∧ sameVExcept [] s t ∧ sameOther s t) ∧
    (0xFFF < s.i.toNat + 2 → faults (.ldB x) s .memRange (max s.i.toNat 0x1000))

/-- Fx55: V0 to Vx at I to I + x, every other byte as before, then I + x + 1; out of range it faults and stores
nothing (R175, R176; D5). -/
def Obligations.BlockStoreWritesV0ToVx : Prop :=
  ∀ (x : Nibble) (s : State),
    (s.i.toNat + x.toNat ≤ 0xFFF → ∃ t, exec (.storeRegs x) s = .next t ∧
      (∀ r : Nibble, r.toNat ≤ x.toNat → t.readByte (s.i.toNat + r.toNat) = s.getV r) ∧
      sameMemoryOutside s.i.toNat (x.toNat + 1) s t ∧ t.i.toNat = s.i.toNat + x.toNat + 1 ∧
      t.pc = s.pc + 2 ∧ sameVExcept [] s t ∧ sameOther s t) ∧
    (0xFFF < s.i.toNat + x.toNat → faults (.storeRegs x) s .memRange (max s.i.toNat 0x1000))

/-- Fx65: V0 to Vx from I to I + x, every other register as before, then I + x + 1; out of range it faults and
loads nothing (R175, R177; D5). -/
def Obligations.BlockLoadReadsV0ToVx : Prop :=
  ∀ (x : Nibble) (s : State),
    (s.i.toNat + x.toNat ≤ 0xFFF → ∃ t, exec (.loadRegs x) s = .next t ∧
      (∀ r : Nibble, r.toNat ≤ x.toNat → t.getV r = s.readByte (s.i.toNat + r.toNat)) ∧
      (∀ r : Nibble, x.toNat < r.toNat → t.getV r = s.getV r) ∧
      t.i.toNat = s.i.toNat + x.toNat + 1 ∧ t.pc = s.pc + 2 ∧ sameMemory s t ∧ sameOther s t) ∧
    (0xFFF < s.i.toNat + x.toNat → faults (.loadRegs x) s .memRange (max s.i.toNat 0x1000))

/-- Fx55 and then Fx65 of the same x from the same I, into any register file, give the stored values back, and I
grows by x + 1 both times (R177, 95_test_vectors.md S9). -/
def Obligations.BlockStoreThenLoadRoundTrip : Prop :=
  ∀ (x : Nibble) (s t u : State), s.i.toNat + x.toNat ≤ 0xFFF → exec (.storeRegs x) s = .next t →
    u.i = s.i → sameMemory t u →
    ∃ r, exec (.loadRegs x) u = .next r ∧ (∀ k : Nibble, k.toNat ≤ x.toNat → r.getV k = s.getV k) ∧
      t.i = s.i + BitVec.ofNat 16 (x.toNat + 1) ∧ r.i = t.i

/-! ## Display (44_display.md) -/

/-- 00E0: every pixel is 0; no register, no memory and no draw flag changes (R190; D16). -/
def Obligations.ClsClearsTheScreen : Prop :=
  ∀ (ign : Nibble) (s : State), ∃ t, exec (.cls ign) s = .next t ∧ (∀ r c, t.fb.pixel r c = false) ∧
    t.pc = s.pc + 2 ∧ sameVExcept [] s t ∧ t.i = s.i ∧ sameMemory s t ∧ t.draw = s.draw ∧ sameStack s t ∧
    sameTimers s t ∧ sameControl s t

/-- Dxyn: each screen pixel is XORed with whether a set sprite pixel lands on it, clipped or wrapped; VF is 1
exactly when some set sprite pixel lands on a pixel that was 1, else 0; draw is set (R191 to R195, R197). Sprite
pixel (r, c) is bit 7 - c of the byte at I + r: that order of the bits is the spec's general knowledge (D18, log
12), and the range the statement asks of I its decision (D5, log 13). -/
def Obligations.DrwXorsTheSpriteOntoTheScreen : Prop :=
  ∀ (x y n : Nibble) (s : State), (n = 0 ∨ s.i.toNat + (n.toNat - 1) ≤ 0xFFF) →
    ∃ t, exec (.drw x y n) s = .next t ∧
      (∀ r c, t.fb.pixel r c = (s.fb.pixel r c ^^ decide (spriteCovers s x y n r c))) ∧
      (t.getV 0xF = 0 ∨ t.getV 0xF = 1) ∧
      (t.getV 0xF = 1 ↔ ∃ r c, spriteCovers s x y n r c ∧ s.fb.pixel r c = true) ∧
      t.draw = true ∧ t.pc = s.pc + 2 ∧ sameVExcept [0xF] s t ∧ t.i = s.i ∧ sameMemory s t ∧
      sameStack s t ∧ sameTimers s t ∧ sameControl s t

/-- Dxyn with a sprite byte above 0xFFF, clipped or not, faults with the lowest such address and draws nothing
(R196; D5, D17). -/
def Obligations.DrwOutOfRangeFaults : Prop :=
  ∀ (x y n : Nibble) (s : State), n ≠ 0 → 0xFFF < s.i.toNat + (n.toNat - 1) →
    faults (.drw x y n) s .memRange (max s.i.toNat 0x1000)

/-! ## Keys and timers (45_keys_timers.md) -/

/-- Ex9E and ExA1: the key whose index is the value in Vx; above 15 KeyRange (R210, R211, R213; D10). -/
def Obligations.KeySkipsReadTheKeyInVx : Prop :=
  ∀ (x : Nibble) (s : State),
    ((s.getV x).toNat ≤ 15 →
      (∃ t, exec (.skp x) s = .next t ∧
        t.pc = (if s.env.keys.getLsbD (s.getV x).toNat = true then s.pc + 4 else s.pc + 2) ∧ onlyPc s t) ∧
      (∃ t, exec (.sknp x) s = .next t ∧
        t.pc = (if s.env.keys.getLsbD (s.getV x).toNat = true then s.pc + 2 else s.pc + 4) ∧ onlyPc s t)) ∧
    (15 < (s.getV x).toNat →
      faults (.skp x) s .keyRange (s.getV x).toNat ∧ faults (.sknp x) s .keyRange (s.getV x).toNat)

/-- Fx0A: with no key held nothing changes, PC included; with a key held Vx receives a held key and PC advances,
and every held key is received for some value of the free choice (R212, R111; D11, log 9). -/
def Obligations.KeyWaitStoresAHeldKey : Prop :=
  ∀ (x : Nibble) (s : State),
    ((∀ k, k < 16 → s.env.keys.getLsbD k = false) → exec (.ldVxK x) s = .next s) ∧
    (∀ k, k < 16 → s.env.keys.getLsbD k = true →
      (∃ t, exec (.ldVxK x) s = .next t ∧ (t.getV x).toNat < 16 ∧
        s.env.keys.getLsbD (t.getV x).toNat = true ∧ t.pc = s.pc + 2 ∧ onlyVAndPc [x] s t) ∧
      (∃ (c : Nibble) (t : State), exec (.ldVxK x) { s with env := { s.env with choice := c } } = .next t ∧
        (t.getV x).toNat = k))

/-- Fx07, Fx15, Fx18: DT to Vx, Vx to DT, Vx to ST, and sound is active exactly when the new ST is not 0 (R214 to
R216, R27; D22). -/
def Obligations.TimerInstructionsMoveTheTimers : Prop :=
  ∀ (x : Nibble) (s : State),
    (∃ t, exec (.ldVxDt x) s = .next t ∧ t.getV x = s.dt ∧ t.pc = s.pc + 2 ∧ onlyVAndPc [x] s t) ∧
    (∃ t, exec (.ldDtVx x) s = .next t ∧ t.dt = s.getV x ∧ t.pc = s.pc + 2 ∧ sameVExcept [] s t ∧ t.i = s.i ∧
      sameMemory s t ∧ t.fb = s.fb ∧ t.draw = s.draw ∧ sameStack s t ∧ t.st = s.st ∧ sameControl s t) ∧
    (∃ t, exec (.ldStVx x) s = .next t ∧ t.st = s.getV x ∧ (t.soundActive = true ↔ s.getV x ≠ 0) ∧
      t.pc = s.pc + 2 ∧ sameVExcept [] s t ∧ t.i = s.i ∧ sameMemory s t ∧ t.fb = s.fb ∧ t.draw = s.draw ∧
      sameStack s t ∧ t.dt = s.dt ∧ sameControl s t)

/-! ## Where the fields stand (30_encoding.md R72, R75) -/

/-- The word of every instruction as a number: nibble 1 is the family, then x at 256, y at 16, n, kk or nnn at 1, with
the row's fixed bits as R75 gives them; the ignored bits of D13 stand where x or n would (log 8). The encodings
themselves are in part the spec's general knowledge (D22, log 12). -/
def Obligations.EncodePlacesTheFields : Prop :=
  ∀ (x y n : Nibble) (kk : Byte) (nnn : Addr12),
    (encode (.sys nnn)).toNat = nnn.toNat ∧
    (encode (.cls n)).toNat = n.toNat * 256 + 0xE0 ∧
    (encode (.ret n)).toNat = n.toNat * 256 + 0xEE ∧
    (encode (.jmp nnn)).toNat = 0x1000 + nnn.toNat ∧
    (encode (.call nnn)).toNat = 0x2000 + nnn.toNat ∧
    (encode (.seImm x kk)).toNat = 0x3000 + x.toNat * 256 + kk.toNat ∧
    (encode (.sneImm x kk)).toNat = 0x4000 + x.toNat * 256 + kk.toNat ∧
    (encode (.seReg x y n)).toNat = 0x5000 + x.toNat * 256 + y.toNat * 16 + n.toNat ∧
    (encode (.ldImm x kk)).toNat = 0x6000 + x.toNat * 256 + kk.toNat ∧
    (encode (.addImm x kk)).toNat = 0x7000 + x.toNat * 256 + kk.toNat ∧
    (encode (.ldReg x y)).toNat = 0x8000 + x.toNat * 256 + y.toNat * 16 ∧
    (encode (.orReg x y)).toNat = 0x8001 + x.toNat * 256 + y.toNat * 16 ∧
    (encode (.andReg x y)).toNat = 0x8002 + x.toNat * 256 + y.toNat * 16 ∧
    (encode (.xorReg x y)).toNat = 0x8003 + x.toNat * 256 + y.toNat * 16 ∧
    (encode (.addReg x y)).toNat = 0x8004 + x.toNat * 256 + y.toNat * 16 ∧
    (encode (.subReg x y)).toNat = 0x8005 + x.toNat * 256 + y.toNat * 16 ∧
    (encode (.shr x y)).toNat = 0x8006 + x.toNat * 256 + y.toNat * 16 ∧
    (encode (.subn x y)).toNat = 0x8007 + x.toNat * 256 + y.toNat * 16 ∧
    (encode (.shl x y)).toNat = 0x800E + x.toNat * 256 + y.toNat * 16 ∧
    (encode (.sneReg x y n)).toNat = 0x9000 + x.toNat * 256 + y.toNat * 16 + n.toNat ∧
    (encode (.ldI nnn)).toNat = 0xA000 + nnn.toNat ∧
    (encode (.jmpV0 nnn)).toNat = 0xB000 + nnn.toNat ∧
    (encode (.rnd x kk)).toNat = 0xC000 + x.toNat * 256 + kk.toNat ∧
    (encode (.drw x y n)).toNat = 0xD000 + x.toNat * 256 + y.toNat * 16 + n.toNat ∧
    (encode (.skp x)).toNat = 0xE09E + x.toNat * 256 ∧
    (encode (.sknp x)).toNat = 0xE0A1 + x.toNat * 256 ∧
    (encode (.ldVxDt x)).toNat = 0xF007 + x.toNat * 256 ∧
    (encode (.ldVxK x)).toNat = 0xF00A + x.toNat * 256 ∧
    (encode (.ldDtVx x)).toNat = 0xF015 + x.toNat * 256 ∧
    (encode (.ldStVx x)).toNat = 0xF018 + x.toNat * 256 ∧
    (encode (.addI x)).toNat = 0xF01E + x.toNat * 256 ∧
    (encode (.ldF x)).toNat = 0xF029 + x.toNat * 256 ∧
    (encode (.ldB x)).toNat = 0xF033 + x.toNat * 256 ∧
    (encode (.storeRegs x)).toNat = 0xF055 + x.toNat * 256 ∧
    (encode (.loadRegs x)).toNat = 0xF065 + x.toNat * 256
end

