-- ==== Sys2Proof/Laws/Decode.lean ====
section
/-! SUPPORT. The fields of a packed word, and a word packed again from its fields (R71, R72). -/

namespace Sys2Proof

theorem packA_toNat (op : Nibble) (nnn : Addr12) : (packA op nnn).toNat = op.toNat * 4096 + nnn.toNat := by
  refine (BitVec.toNat_append op nnn).trans ?_
  rw [Nat.shiftLeft_eq, Nat.mul_comm, ← Nat.two_pow_add_eq_or_of_lt nnn.isLt, Nat.mul_comm]

theorem packXK_toNat (op x : Nibble) (kk : Byte) :
    (packXK op x kk).toNat = op.toNat * 4096 + x.toNat * 256 + kk.toNat := by
  have h := kk.isLt
  have h' := x.isLt
  simp only [packXK, BitVec.toNat_append, Nat.shiftLeft_eq]
  rw [Nat.mul_comm, Nat.mul_comm op.toNat, ← Nat.two_pow_add_eq_or_of_lt h, ← Nat.two_pow_add_eq_or_of_lt h']
  omega

theorem packXYN_toNat (op x y n : Nibble) :
    (packXYN op x y n).toNat = op.toNat * 4096 + x.toNat * 256 + y.toNat * 16 + n.toNat := by
  simp only [packXYN, BitVec.toNat_append, Nat.shiftLeft_eq]
  rw [Nat.mul_comm, ← Nat.two_pow_add_eq_or_of_lt n.isLt, Nat.mul_comm _ (2 ^ 4),
    ← Nat.two_pow_add_eq_or_of_lt y.isLt, Nat.mul_comm _ (2 ^ 4), ← Nat.two_pow_add_eq_or_of_lt x.isLt]
  omega

theorem fieldOp_toNat (w : Word) : (fieldOp w).toNat = w.toNat / 4096 := by
  have := w.isLt
  simp [fieldOp, BitVec.extractLsb'_toNat, Nat.shiftRight_eq_div_pow]; omega
theorem fieldX_toNat (w : Word) : (fieldX w).toNat = w.toNat / 256 % 16 := by
  simp [fieldX, BitVec.extractLsb'_toNat, Nat.shiftRight_eq_div_pow]
theorem fieldY_toNat (w : Word) : (fieldY w).toNat = w.toNat / 16 % 16 := by
  simp [fieldY, BitVec.extractLsb'_toNat, Nat.shiftRight_eq_div_pow]
theorem fieldN_toNat (w : Word) : (fieldN w).toNat = w.toNat % 16 := by
  simp [fieldN, BitVec.extractLsb'_toNat]
theorem fieldKk_toNat (w : Word) : (fieldKk w).toNat = w.toNat % 256 := by
  simp [fieldKk, BitVec.extractLsb'_toNat]
theorem fieldNnn_toNat (w : Word) : (fieldNnn w).toNat = w.toNat % 4096 := by
  simp [fieldNnn, BitVec.extractLsb'_toNat]

/-! ## Fields of a packed word -/

@[simp] theorem fieldOp_packA (op : Nibble) (nnn : Addr12) : fieldOp (packA op nnn) = op := by
  apply BitVec.eq_of_toNat_eq; rw [fieldOp_toNat, packA_toNat]; have := nnn.isLt; omega
@[simp] theorem fieldNnn_packA (op : Nibble) (nnn : Addr12) : fieldNnn (packA op nnn) = nnn := by
  apply BitVec.eq_of_toNat_eq; rw [fieldNnn_toNat, packA_toNat]; have := nnn.isLt; omega
@[simp] theorem fieldKk_packA (op : Nibble) (nnn : Addr12) : fieldKk (packA op nnn) = nnn.extractLsb' 0 8 := by
  apply BitVec.eq_of_toNat_eq; rw [fieldKk_toNat, packA_toNat]
  simp [BitVec.extractLsb'_toNat]; omega

@[simp] theorem fieldOp_packXK (op x : Nibble) (kk : Byte) : fieldOp (packXK op x kk) = op := by
  apply BitVec.eq_of_toNat_eq; rw [fieldOp_toNat, packXK_toNat]; have := kk.isLt; have := x.isLt; omega
@[simp] theorem fieldX_packXK (op x : Nibble) (kk : Byte) : fieldX (packXK op x kk) = x := by
  apply BitVec.eq_of_toNat_eq; rw [fieldX_toNat, packXK_toNat]; have := kk.isLt; have := x.isLt; omega
@[simp] theorem fieldKk_packXK (op x : Nibble) (kk : Byte) : fieldKk (packXK op x kk) = kk := by
  apply BitVec.eq_of_toNat_eq; rw [fieldKk_toNat, packXK_toNat]; have := kk.isLt; omega

@[simp] theorem fieldOp_packXYN (op x y n : Nibble) : fieldOp (packXYN op x y n) = op := by
  apply BitVec.eq_of_toNat_eq; rw [fieldOp_toNat, packXYN_toNat]
  have := x.isLt; have := y.isLt; have := n.isLt; omega
@[simp] theorem fieldX_packXYN (op x y n : Nibble) : fieldX (packXYN op x y n) = x := by
  apply BitVec.eq_of_toNat_eq; rw [fieldX_toNat, packXYN_toNat]
  have := x.isLt; have := y.isLt; have := n.isLt; omega
@[simp] theorem fieldY_packXYN (op x y n : Nibble) : fieldY (packXYN op x y n) = y := by
  apply BitVec.eq_of_toNat_eq; rw [fieldY_toNat, packXYN_toNat]
  have := x.isLt; have := y.isLt; have := n.isLt; omega
@[simp] theorem fieldN_packXYN (op x y n : Nibble) : fieldN (packXYN op x y n) = n := by
  apply BitVec.eq_of_toNat_eq; rw [fieldN_toNat, packXYN_toNat]
  have := n.isLt; omega

/-! ## A word packed again from its fields -/

theorem packA_fields (w : Word) {op : Nibble} (h : fieldOp w = op) : packA op (fieldNnn w) = w := by
  subst h
  apply BitVec.eq_of_toNat_eq; rw [packA_toNat, fieldOp_toNat, fieldNnn_toNat]; omega

theorem packXK_fields (w : Word) {op : Nibble} {kk : Byte} (h : fieldOp w = op) (hk : fieldKk w = kk) :
    packXK op (fieldX w) kk = w := by
  subst h hk
  apply BitVec.eq_of_toNat_eq; rw [packXK_toNat, fieldOp_toNat, fieldX_toNat, fieldKk_toNat]; omega

theorem packXYN_fields (w : Word) {op n : Nibble} (h : fieldOp w = op) (hn : fieldN w = n) :
    packXYN op (fieldX w) (fieldY w) n = w := by
  subst h hn
  apply BitVec.eq_of_toNat_eq
  rw [packXYN_toNat, fieldOp_toNat, fieldX_toNat, fieldY_toNat, fieldN_toNat]; omega

/-! ## Bytes of a word (R54, R79) -/

theorem wordOfBytes_toNat (hi lo : Byte) : (wordOfBytes hi lo).toNat = hi.toNat * 256 + lo.toNat := by
  refine (BitVec.toNat_append hi lo).trans ?_
  rw [Nat.shiftLeft_eq, Nat.mul_comm, ← Nat.two_pow_add_eq_or_of_lt lo.isLt, Nat.mul_comm]

@[simp] theorem wordOfBytes_bytes (w : Word) : wordOfBytes (highByte w) (lowByte w) = w := by
  have := w.isLt
  apply BitVec.eq_of_toNat_eq
  rw [wordOfBytes_toNat]
  simp [highByte, lowByte, BitVec.extractLsb'_toNat, Nat.shiftRight_eq_div_pow]; omega

end Sys2Proof
end

