-- ==== Sys2Proof/Laws/State.lean ====
section
/-! SUPPORT. One lemma per field per update of the state, true by rfl; then reads through each update. -/

namespace Sys2Proof.Machine

variable (s : State)

/-! ### setV -/

@[simp] theorem State.setV_v (x : Nibble) (b : Byte) : (s.setV x b).v = s.v.set x.toNat b := rfl
@[simp] theorem State.setV_i (x : Nibble) (b : Byte) : (s.setV x b).i = s.i := rfl
@[simp] theorem State.setV_pc (x : Nibble) (b : Byte) : (s.setV x b).pc = s.pc := rfl
@[simp] theorem State.setV_stack (x : Nibble) (b : Byte) : (s.setV x b).stack = s.stack := rfl
@[simp] theorem State.setV_sp (x : Nibble) (b : Byte) : (s.setV x b).sp = s.sp := rfl
@[simp] theorem State.setV_dt (x : Nibble) (b : Byte) : (s.setV x b).dt = s.dt := rfl
@[simp] theorem State.setV_st (x : Nibble) (b : Byte) : (s.setV x b).st = s.st := rfl
@[simp] theorem State.setV_fb (x : Nibble) (b : Byte) : (s.setV x b).fb = s.fb := rfl
@[simp] theorem State.setV_mem (x : Nibble) (b : Byte) : (s.setV x b).mem = s.mem := rfl
@[simp] theorem State.setV_useOriginalShiftInstructions (x : Nibble) (b : Byte) : (s.setV x b).useOriginalShiftInstructions = s.useOriginalShiftInstructions := rfl
@[simp] theorem State.setV_enableClipping (x : Nibble) (b : Byte) : (s.setV x b).enableClipping = s.enableClipping := rfl
@[simp] theorem State.setV_sysMode (x : Nibble) (b : Byte) : (s.setV x b).sysMode = s.sysMode := rfl
@[simp] theorem State.setV_draw (x : Nibble) (b : Byte) : (s.setV x b).draw = s.draw := rfl
@[simp] theorem State.setV_redrawCtr (x : Nibble) (b : Byte) : (s.setV x b).redrawCtr = s.redrawCtr := rfl
@[simp] theorem State.setV_redraw (x : Nibble) (b : Byte) : (s.setV x b).redraw = s.redraw := rfl
@[simp] theorem State.setV_run (x : Nibble) (b : Byte) : (s.setV x b).run = s.run := rfl
@[simp] theorem State.setV_env (x : Nibble) (b : Byte) : (s.setV x b).env = s.env := rfl
@[simp] theorem State.setV_envSeq (x : Nibble) (b : Byte) : (s.setV x b).envSeq = s.envSeq := rfl
@[simp] theorem State.setV_readByte (x : Nibble) (w : Byte) (b : Nat) : (s.setV x w).readByte b = s.readByte b := rfl

/-! ### setI -/

@[simp] theorem State.setI_v (a : Word) : (s.setI a).v = s.v := rfl
@[simp] theorem State.setI_i (a : Word) : (s.setI a).i = a := rfl
@[simp] theorem State.setI_pc (a : Word) : (s.setI a).pc = s.pc := rfl
@[simp] theorem State.setI_stack (a : Word) : (s.setI a).stack = s.stack := rfl
@[simp] theorem State.setI_sp (a : Word) : (s.setI a).sp = s.sp := rfl
@[simp] theorem State.setI_dt (a : Word) : (s.setI a).dt = s.dt := rfl
@[simp] theorem State.setI_st (a : Word) : (s.setI a).st = s.st := rfl
@[simp] theorem State.setI_fb (a : Word) : (s.setI a).fb = s.fb := rfl
@[simp] theorem State.setI_mem (a : Word) : (s.setI a).mem = s.mem := rfl
@[simp] theorem State.setI_useOriginalShiftInstructions (a : Word) : (s.setI a).useOriginalShiftInstructions = s.useOriginalShiftInstructions := rfl
@[simp] theorem State.setI_enableClipping (a : Word) : (s.setI a).enableClipping = s.enableClipping := rfl
@[simp] theorem State.setI_sysMode (a : Word) : (s.setI a).sysMode = s.sysMode := rfl
@[simp] theorem State.setI_draw (a : Word) : (s.setI a).draw = s.draw := rfl
@[simp] theorem State.setI_redrawCtr (a : Word) : (s.setI a).redrawCtr = s.redrawCtr := rfl
@[simp] theorem State.setI_redraw (a : Word) : (s.setI a).redraw = s.redraw := rfl
@[simp] theorem State.setI_run (a : Word) : (s.setI a).run = s.run := rfl
@[simp] theorem State.setI_env (a : Word) : (s.setI a).env = s.env := rfl
@[simp] theorem State.setI_envSeq (a : Word) : (s.setI a).envSeq = s.envSeq := rfl
@[simp] theorem State.setI_getV (a : Word) (r : Nibble) : (s.setI a).getV r = s.getV r := rfl
@[simp] theorem State.setI_readByte (a : Word) (b : Nat) : (s.setI a).readByte b = s.readByte b := rfl

/-! ### setDt -/

@[simp] theorem State.setDt_v (b : Byte) : (s.setDt b).v = s.v := rfl
@[simp] theorem State.setDt_i (b : Byte) : (s.setDt b).i = s.i := rfl
@[simp] theorem State.setDt_pc (b : Byte) : (s.setDt b).pc = s.pc := rfl
@[simp] theorem State.setDt_stack (b : Byte) : (s.setDt b).stack = s.stack := rfl
@[simp] theorem State.setDt_sp (b : Byte) : (s.setDt b).sp = s.sp := rfl
@[simp] theorem State.setDt_dt (b : Byte) : (s.setDt b).dt = b := rfl
@[simp] theorem State.setDt_st (b : Byte) : (s.setDt b).st = s.st := rfl
@[simp] theorem State.setDt_fb (b : Byte) : (s.setDt b).fb = s.fb := rfl
@[simp] theorem State.setDt_mem (b : Byte) : (s.setDt b).mem = s.mem := rfl
@[simp] theorem State.setDt_useOriginalShiftInstructions (b : Byte) : (s.setDt b).useOriginalShiftInstructions = s.useOriginalShiftInstructions := rfl
@[simp] theorem State.setDt_enableClipping (b : Byte) : (s.setDt b).enableClipping = s.enableClipping := rfl
@[simp] theorem State.setDt_sysMode (b : Byte) : (s.setDt b).sysMode = s.sysMode := rfl
@[simp] theorem State.setDt_draw (b : Byte) : (s.setDt b).draw = s.draw := rfl
@[simp] theorem State.setDt_redrawCtr (b : Byte) : (s.setDt b).redrawCtr = s.redrawCtr := rfl
@[simp] theorem State.setDt_redraw (b : Byte) : (s.setDt b).redraw = s.redraw := rfl
@[simp] theorem State.setDt_run (b : Byte) : (s.setDt b).run = s.run := rfl
@[simp] theorem State.setDt_env (b : Byte) : (s.setDt b).env = s.env := rfl
@[simp] theorem State.setDt_envSeq (b : Byte) : (s.setDt b).envSeq = s.envSeq := rfl
@[simp] theorem State.setDt_getV (b : Byte) (r : Nibble) : (s.setDt b).getV r = s.getV r := rfl
@[simp] theorem State.setDt_readByte (w : Byte) (b : Nat) : (s.setDt w).readByte b = s.readByte b := rfl

/-! ### setSt -/

@[simp] theorem State.setSt_v (b : Byte) : (s.setSt b).v = s.v := rfl
@[simp] theorem State.setSt_i (b : Byte) : (s.setSt b).i = s.i := rfl
@[simp] theorem State.setSt_pc (b : Byte) : (s.setSt b).pc = s.pc := rfl
@[simp] theorem State.setSt_stack (b : Byte) : (s.setSt b).stack = s.stack := rfl
@[simp] theorem State.setSt_sp (b : Byte) : (s.setSt b).sp = s.sp := rfl
@[simp] theorem State.setSt_dt (b : Byte) : (s.setSt b).dt = s.dt := rfl
@[simp] theorem State.setSt_st (b : Byte) : (s.setSt b).st = b := rfl
@[simp] theorem State.setSt_fb (b : Byte) : (s.setSt b).fb = s.fb := rfl
@[simp] theorem State.setSt_mem (b : Byte) : (s.setSt b).mem = s.mem := rfl
@[simp] theorem State.setSt_useOriginalShiftInstructions (b : Byte) : (s.setSt b).useOriginalShiftInstructions = s.useOriginalShiftInstructions := rfl
@[simp] theorem State.setSt_enableClipping (b : Byte) : (s.setSt b).enableClipping = s.enableClipping := rfl
@[simp] theorem State.setSt_sysMode (b : Byte) : (s.setSt b).sysMode = s.sysMode := rfl
@[simp] theorem State.setSt_draw (b : Byte) : (s.setSt b).draw = s.draw := rfl
@[simp] theorem State.setSt_redrawCtr (b : Byte) : (s.setSt b).redrawCtr = s.redrawCtr := rfl
@[simp] theorem State.setSt_redraw (b : Byte) : (s.setSt b).redraw = s.redraw := rfl
@[simp] theorem State.setSt_run (b : Byte) : (s.setSt b).run = s.run := rfl
@[simp] theorem State.setSt_env (b : Byte) : (s.setSt b).env = s.env := rfl
@[simp] theorem State.setSt_envSeq (b : Byte) : (s.setSt b).envSeq = s.envSeq := rfl
@[simp] theorem State.setSt_getV (b : Byte) (r : Nibble) : (s.setSt b).getV r = s.getV r := rfl
@[simp] theorem State.setSt_readByte (w : Byte) (b : Nat) : (s.setSt w).readByte b = s.readByte b := rfl

/-! ### setFb -/

@[simp] theorem State.setFb_v (f : FrameBuffer) : (s.setFb f).v = s.v := rfl
@[simp] theorem State.setFb_i (f : FrameBuffer) : (s.setFb f).i = s.i := rfl
@[simp] theorem State.setFb_pc (f : FrameBuffer) : (s.setFb f).pc = s.pc := rfl
@[simp] theorem State.setFb_stack (f : FrameBuffer) : (s.setFb f).stack = s.stack := rfl
@[simp] theorem State.setFb_sp (f : FrameBuffer) : (s.setFb f).sp = s.sp := rfl
@[simp] theorem State.setFb_dt (f : FrameBuffer) : (s.setFb f).dt = s.dt := rfl
@[simp] theorem State.setFb_st (f : FrameBuffer) : (s.setFb f).st = s.st := rfl
@[simp] theorem State.setFb_fb (f : FrameBuffer) : (s.setFb f).fb = f := rfl
@[simp] theorem State.setFb_mem (f : FrameBuffer) : (s.setFb f).mem = s.mem := rfl
@[simp] theorem State.setFb_useOriginalShiftInstructions (f : FrameBuffer) : (s.setFb f).useOriginalShiftInstructions = s.useOriginalShiftInstructions := rfl
@[simp] theorem State.setFb_enableClipping (f : FrameBuffer) : (s.setFb f).enableClipping = s.enableClipping := rfl
@[simp] theorem State.setFb_sysMode (f : FrameBuffer) : (s.setFb f).sysMode = s.sysMode := rfl
@[simp] theorem State.setFb_draw (f : FrameBuffer) : (s.setFb f).draw = s.draw := rfl
@[simp] theorem State.setFb_redrawCtr (f : FrameBuffer) : (s.setFb f).redrawCtr = s.redrawCtr := rfl
@[simp] theorem State.setFb_redraw (f : FrameBuffer) : (s.setFb f).redraw = s.redraw := rfl
@[simp] theorem State.setFb_run (f : FrameBuffer) : (s.setFb f).run = s.run := rfl
@[simp] theorem State.setFb_env (f : FrameBuffer) : (s.setFb f).env = s.env := rfl
@[simp] theorem State.setFb_envSeq (f : FrameBuffer) : (s.setFb f).envSeq = s.envSeq := rfl
@[simp] theorem State.setFb_getV (f : FrameBuffer) (r : Nibble) : (s.setFb f).getV r = s.getV r := rfl
@[simp] theorem State.setFb_readByte (f : FrameBuffer) (b : Nat) : (s.setFb f).readByte b = s.readByte b := rfl

/-! ### markDraw -/

@[simp] theorem State.markDraw_v : (s.markDraw).v = s.v := rfl
@[simp] theorem State.markDraw_i : (s.markDraw).i = s.i := rfl
@[simp] theorem State.markDraw_pc : (s.markDraw).pc = s.pc := rfl
@[simp] theorem State.markDraw_stack : (s.markDraw).stack = s.stack := rfl
@[simp] theorem State.markDraw_sp : (s.markDraw).sp = s.sp := rfl
@[simp] theorem State.markDraw_dt : (s.markDraw).dt = s.dt := rfl
@[simp] theorem State.markDraw_st : (s.markDraw).st = s.st := rfl
@[simp] theorem State.markDraw_fb : (s.markDraw).fb = s.fb := rfl
@[simp] theorem State.markDraw_mem : (s.markDraw).mem = s.mem := rfl
@[simp] theorem State.markDraw_useOriginalShiftInstructions : (s.markDraw).useOriginalShiftInstructions = s.useOriginalShiftInstructions := rfl
@[simp] theorem State.markDraw_enableClipping : (s.markDraw).enableClipping = s.enableClipping := rfl
@[simp] theorem State.markDraw_sysMode : (s.markDraw).sysMode = s.sysMode := rfl
@[simp] theorem State.markDraw_draw : (s.markDraw).draw = true := rfl
@[simp] theorem State.markDraw_redrawCtr : (s.markDraw).redrawCtr = s.redrawCtr := rfl
@[simp] theorem State.markDraw_redraw : (s.markDraw).redraw = s.redraw := rfl
@[simp] theorem State.markDraw_run : (s.markDraw).run = s.run := rfl
@[simp] theorem State.markDraw_env : (s.markDraw).env = s.env := rfl
@[simp] theorem State.markDraw_envSeq : (s.markDraw).envSeq = s.envSeq := rfl
@[simp] theorem State.markDraw_getV (r : Nibble) : (s.markDraw).getV r = s.getV r := rfl
@[simp] theorem State.markDraw_readByte (b : Nat) : (s.markDraw).readByte b = s.readByte b := rfl

/-! ### writeByte -/

@[simp] theorem State.writeByte_v (a : Nat) (w : Byte) : (s.writeByte a w).v = s.v := rfl
@[simp] theorem State.writeByte_i (a : Nat) (w : Byte) : (s.writeByte a w).i = s.i := rfl
@[simp] theorem State.writeByte_pc (a : Nat) (w : Byte) : (s.writeByte a w).pc = s.pc := rfl
@[simp] theorem State.writeByte_stack (a : Nat) (w : Byte) : (s.writeByte a w).stack = s.stack := rfl
@[simp] theorem State.writeByte_sp (a : Nat) (w : Byte) : (s.writeByte a w).sp = s.sp := rfl
@[simp] theorem State.writeByte_dt (a : Nat) (w : Byte) : (s.writeByte a w).dt = s.dt := rfl
@[simp] theorem State.writeByte_st (a : Nat) (w : Byte) : (s.writeByte a w).st = s.st := rfl
@[simp] theorem State.writeByte_fb (a : Nat) (w : Byte) : (s.writeByte a w).fb = s.fb := rfl
@[simp] theorem State.writeByte_mem (a : Nat) (w : Byte) : (s.writeByte a w).mem = s.mem.write a w := rfl
@[simp] theorem State.writeByte_useOriginalShiftInstructions (a : Nat) (w : Byte) : (s.writeByte a w).useOriginalShiftInstructions = s.useOriginalShiftInstructions := rfl
@[simp] theorem State.writeByte_enableClipping (a : Nat) (w : Byte) : (s.writeByte a w).enableClipping = s.enableClipping := rfl
@[simp] theorem State.writeByte_sysMode (a : Nat) (w : Byte) : (s.writeByte a w).sysMode = s.sysMode := rfl
@[simp] theorem State.writeByte_draw (a : Nat) (w : Byte) : (s.writeByte a w).draw = s.draw := rfl
@[simp] theorem State.writeByte_redrawCtr (a : Nat) (w : Byte) : (s.writeByte a w).redrawCtr = s.redrawCtr := rfl
@[simp] theorem State.writeByte_redraw (a : Nat) (w : Byte) : (s.writeByte a w).redraw = s.redraw := rfl
@[simp] theorem State.writeByte_run (a : Nat) (w : Byte) : (s.writeByte a w).run = s.run := rfl
@[simp] theorem State.writeByte_env (a : Nat) (w : Byte) : (s.writeByte a w).env = s.env := rfl
@[simp] theorem State.writeByte_envSeq (a : Nat) (w : Byte) : (s.writeByte a w).envSeq = s.envSeq := rfl
@[simp] theorem State.writeByte_getV (a : Nat) (w : Byte) (r : Nibble) : (s.writeByte a w).getV r = s.getV r := rfl

/-! ### applyPcAction -/

@[simp] theorem State.applyPcAction_v (a : PcAction) : (s.applyPcAction a).v = s.v := rfl
@[simp] theorem State.applyPcAction_i (a : PcAction) : (s.applyPcAction a).i = s.i := rfl
@[simp] theorem State.applyPcAction_pc (a : PcAction) : (s.applyPcAction a).pc = a.target s.pc := rfl
@[simp] theorem State.applyPcAction_stack (a : PcAction) : (s.applyPcAction a).stack = s.stack := rfl
@[simp] theorem State.applyPcAction_sp (a : PcAction) : (s.applyPcAction a).sp = s.sp := rfl
@[simp] theorem State.applyPcAction_dt (a : PcAction) : (s.applyPcAction a).dt = s.dt := rfl
@[simp] theorem State.applyPcAction_st (a : PcAction) : (s.applyPcAction a).st = s.st := rfl
@[simp] theorem State.applyPcAction_fb (a : PcAction) : (s.applyPcAction a).fb = s.fb := rfl
@[simp] theorem State.applyPcAction_mem (a : PcAction) : (s.applyPcAction a).mem = s.mem := rfl
@[simp] theorem State.applyPcAction_useOriginalShiftInstructions (a : PcAction) : (s.applyPcAction a).useOriginalShiftInstructions = s.useOriginalShiftInstructions := rfl
@[simp] theorem State.applyPcAction_enableClipping (a : PcAction) : (s.applyPcAction a).enableClipping = s.enableClipping := rfl
@[simp] theorem State.applyPcAction_sysMode (a : PcAction) : (s.applyPcAction a).sysMode = s.sysMode := rfl
@[simp] theorem State.applyPcAction_draw (a : PcAction) : (s.applyPcAction a).draw = s.draw := rfl
@[simp] theorem State.applyPcAction_redrawCtr (a : PcAction) : (s.applyPcAction a).redrawCtr = s.redrawCtr := rfl
@[simp] theorem State.applyPcAction_redraw (a : PcAction) : (s.applyPcAction a).redraw = s.redraw := rfl
@[simp] theorem State.applyPcAction_run (a : PcAction) : (s.applyPcAction a).run = s.run := rfl
@[simp] theorem State.applyPcAction_env (a : PcAction) : (s.applyPcAction a).env = s.env := rfl
@[simp] theorem State.applyPcAction_envSeq (a : PcAction) : (s.applyPcAction a).envSeq = s.envSeq := rfl
@[simp] theorem State.applyPcAction_getV (a : PcAction) (r : Nibble) : (s.applyPcAction a).getV r = s.getV r := rfl
@[simp] theorem State.applyPcAction_readByte (a : PcAction) (b : Nat) : (s.applyPcAction a).readByte b = s.readByte b := rfl

/-! ### raise -/

@[simp] theorem State.raise_v (c : Cause) (w : Word) (info : Nat) : (s.raise c w info).v = s.v := rfl
@[simp] theorem State.raise_i (c : Cause) (w : Word) (info : Nat) : (s.raise c w info).i = s.i := rfl
@[simp] theorem State.raise_pc (c : Cause) (w : Word) (info : Nat) : (s.raise c w info).pc = s.pc := rfl
@[simp] theorem State.raise_stack (c : Cause) (w : Word) (info : Nat) : (s.raise c w info).stack = s.stack := rfl
@[simp] theorem State.raise_sp (c : Cause) (w : Word) (info : Nat) : (s.raise c w info).sp = s.sp := rfl
@[simp] theorem State.raise_dt (c : Cause) (w : Word) (info : Nat) : (s.raise c w info).dt = s.dt := rfl
@[simp] theorem State.raise_st (c : Cause) (w : Word) (info : Nat) : (s.raise c w info).st = s.st := rfl
@[simp] theorem State.raise_fb (c : Cause) (w : Word) (info : Nat) : (s.raise c w info).fb = s.fb := rfl
@[simp] theorem State.raise_mem (c : Cause) (w : Word) (info : Nat) : (s.raise c w info).mem = s.mem := rfl
@[simp] theorem State.raise_useOriginalShiftInstructions (c : Cause) (w : Word) (info : Nat) : (s.raise c w info).useOriginalShiftInstructions = s.useOriginalShiftInstructions := rfl
@[simp] theorem State.raise_enableClipping (c : Cause) (w : Word) (info : Nat) : (s.raise c w info).enableClipping = s.enableClipping := rfl
@[simp] theorem State.raise_sysMode (c : Cause) (w : Word) (info : Nat) : (s.raise c w info).sysMode = s.sysMode := rfl
@[simp] theorem State.raise_draw (c : Cause) (w : Word) (info : Nat) : (s.raise c w info).draw = s.draw := rfl
@[simp] theorem State.raise_redrawCtr (c : Cause) (w : Word) (info : Nat) : (s.raise c w info).redrawCtr = s.redrawCtr := rfl
@[simp] theorem State.raise_redraw (c : Cause) (w : Word) (info : Nat) : (s.raise c w info).redraw = s.redraw := rfl
@[simp] theorem State.raise_run (c : Cause) (w : Word) (info : Nat) : (s.raise c w info).run = .halted (.fault c s.pc w info) := rfl
@[simp] theorem State.raise_env (c : Cause) (w : Word) (info : Nat) : (s.raise c w info).env = s.env := rfl
@[simp] theorem State.raise_envSeq (c : Cause) (w : Word) (info : Nat) : (s.raise c w info).envSeq = s.envSeq := rfl
@[simp] theorem State.raise_getV (c : Cause) (w : Word) (info : Nat) (r : Nibble) : (s.raise c w info).getV r = s.getV r := rfl
@[simp] theorem State.raise_readByte (c : Cause) (w : Word) (info : Nat) (b : Nat) : (s.raise c w info).readByte b = s.readByte b := rfl

/-! ### tick -/

@[simp] theorem State.tick_v : (s.tick).v = s.v := rfl
@[simp] theorem State.tick_i : (s.tick).i = s.i := rfl
@[simp] theorem State.tick_pc : (s.tick).pc = s.pc := rfl
@[simp] theorem State.tick_stack : (s.tick).stack = s.stack := rfl
@[simp] theorem State.tick_sp : (s.tick).sp = s.sp := rfl
@[simp] theorem State.tick_dt : (s.tick).dt = decTimer s.dt := rfl
@[simp] theorem State.tick_st : (s.tick).st = decTimer s.st := rfl
@[simp] theorem State.tick_fb : (s.tick).fb = s.fb := rfl
@[simp] theorem State.tick_mem : (s.tick).mem = s.mem := rfl
@[simp] theorem State.tick_useOriginalShiftInstructions : (s.tick).useOriginalShiftInstructions = s.useOriginalShiftInstructions := rfl
@[simp] theorem State.tick_enableClipping : (s.tick).enableClipping = s.enableClipping := rfl
@[simp] theorem State.tick_sysMode : (s.tick).sysMode = s.sysMode := rfl
@[simp] theorem State.tick_draw : (s.tick).draw = s.draw := rfl
@[simp] theorem State.tick_redrawCtr : (s.tick).redrawCtr = s.redrawCtr := rfl
@[simp] theorem State.tick_redraw : (s.tick).redraw = s.redraw := rfl
@[simp] theorem State.tick_run : (s.tick).run = s.run := rfl
@[simp] theorem State.tick_env : (s.tick).env = s.env := rfl
@[simp] theorem State.tick_envSeq : (s.tick).envSeq = s.envSeq := rfl
@[simp] theorem State.tick_getV (r : Nibble) : (s.tick).getV r = s.getV r := rfl
@[simp] theorem State.tick_readByte (b : Nat) : (s.tick).readByte b = s.readByte b := rfl

/-! ### beginCycle -/

@[simp] theorem State.beginCycle_v : (s.beginCycle).v = s.v := rfl
@[simp] theorem State.beginCycle_i : (s.beginCycle).i = s.i := rfl
@[simp] theorem State.beginCycle_pc : (s.beginCycle).pc = s.pc := rfl
@[simp] theorem State.beginCycle_stack : (s.beginCycle).stack = s.stack := rfl
@[simp] theorem State.beginCycle_sp : (s.beginCycle).sp = s.sp := rfl
@[simp] theorem State.beginCycle_dt : (s.beginCycle).dt = s.dt := rfl
@[simp] theorem State.beginCycle_st : (s.beginCycle).st = s.st := rfl
@[simp] theorem State.beginCycle_fb : (s.beginCycle).fb = s.fb := rfl
@[simp] theorem State.beginCycle_mem : (s.beginCycle).mem = s.mem := rfl
@[simp] theorem State.beginCycle_useOriginalShiftInstructions : (s.beginCycle).useOriginalShiftInstructions = s.useOriginalShiftInstructions := rfl
@[simp] theorem State.beginCycle_enableClipping : (s.beginCycle).enableClipping = s.enableClipping := rfl
@[simp] theorem State.beginCycle_sysMode : (s.beginCycle).sysMode = s.sysMode := rfl
@[simp] theorem State.beginCycle_draw : (s.beginCycle).draw = false := rfl
@[simp] theorem State.beginCycle_redrawCtr : (s.beginCycle).redrawCtr = s.redrawCtr := rfl
@[simp] theorem State.beginCycle_redraw : (s.beginCycle).redraw = s.redraw := rfl
@[simp] theorem State.beginCycle_run : (s.beginCycle).run = s.run := rfl
@[simp] theorem State.beginCycle_env : (s.beginCycle).env = s.env := rfl
@[simp] theorem State.beginCycle_envSeq : (s.beginCycle).envSeq = s.envSeq := rfl
@[simp] theorem State.beginCycle_getV (r : Nibble) : (s.beginCycle).getV r = s.getV r := rfl
@[simp] theorem State.beginCycle_readByte (b : Nat) : (s.beginCycle).readByte b = s.readByte b := rfl

/-! ### serveEnv -/

@[simp] theorem State.serveEnv_v : (s.serveEnv).v = s.v := rfl
@[simp] theorem State.serveEnv_i : (s.serveEnv).i = s.i := rfl
@[simp] theorem State.serveEnv_pc : (s.serveEnv).pc = s.pc := rfl
@[simp] theorem State.serveEnv_stack : (s.serveEnv).stack = s.stack := rfl
@[simp] theorem State.serveEnv_sp : (s.serveEnv).sp = s.sp := rfl
@[simp] theorem State.serveEnv_dt : (s.serveEnv).dt = s.dt := rfl
@[simp] theorem State.serveEnv_st : (s.serveEnv).st = s.st := rfl
@[simp] theorem State.serveEnv_fb : (s.serveEnv).fb = s.fb := rfl
@[simp] theorem State.serveEnv_mem : (s.serveEnv).mem = s.mem := rfl
@[simp] theorem State.serveEnv_useOriginalShiftInstructions : (s.serveEnv).useOriginalShiftInstructions = s.useOriginalShiftInstructions := rfl
@[simp] theorem State.serveEnv_enableClipping : (s.serveEnv).enableClipping = s.enableClipping := rfl
@[simp] theorem State.serveEnv_sysMode : (s.serveEnv).sysMode = s.sysMode := rfl
@[simp] theorem State.serveEnv_draw : (s.serveEnv).draw = s.draw := rfl
@[simp] theorem State.serveEnv_redrawCtr : (s.serveEnv).redrawCtr = s.redrawCtr := rfl
@[simp] theorem State.serveEnv_redraw : (s.serveEnv).redraw = s.redraw := rfl
@[simp] theorem State.serveEnv_run : (s.serveEnv).run = s.run := rfl
@[simp] theorem State.serveEnv_env : (s.serveEnv).env = Config.envSlot s.envSeq := rfl
@[simp] theorem State.serveEnv_envSeq : (s.serveEnv).envSeq = s.envSeq + 1 := rfl
@[simp] theorem State.serveEnv_getV (r : Nibble) : (s.serveEnv).getV r = s.getV r := rfl
@[simp] theorem State.serveEnv_readByte (b : Nat) : (s.serveEnv).readByte b = s.readByte b := rfl

/-! ### Reads of the register file -/

theorem State.getV_setV (x r : Nibble) (b : Byte) :
    (s.setV x b).getV r = if r = x then b else s.getV r := by
  unfold State.getV State.setV
  by_cases h : r = x
  · subst h; simp
  · have : x.toNat ≠ r.toNat := fun e => h (BitVec.eq_of_toNat_eq e.symm)
    simp [h, this]

@[simp] theorem State.getV_setV_same (x : Nibble) (b : Byte) : (s.setV x b).getV x = b := by
  simp [State.getV_setV]

theorem State.getV_setV_of_ne {x r : Nibble} (h : r ≠ x) (b : Byte) : (s.setV x b).getV r = s.getV r := by
  simp [State.getV_setV, h]

/-! ### The redraw update -/

theorem State.redrawUpdate_eq :
    s.redrawUpdate = { s with redrawCtr := s.redrawUpdate.redrawCtr, redraw := s.redrawUpdate.redraw } := by
  unfold State.redrawUpdate; split <;> [skip; split] <;> rfl

/-- What the redraw update leaves, whatever the draw flag. -/
theorem State.redrawUpdate_run : s.redrawUpdate.run = s.run := by rw [State.redrawUpdate_eq]

end Sys2Proof.Machine
end

