-- ==== Sys2Proof/Laws/Memory.lean ====
section
/-! SUPPORT. Memory: read after write, the canonical form, and equal reads mean equal memories. -/

namespace Sys2Proof.Machine

/-! ## Reads -/

theorem Memory.read_of_not_listed {m : Memory} {a : Nat} (h : ∀ c ∈ m, c.1 ≠ a) :
    Memory.read m a = background a := by
  induction m with
  | nil => rfl
  | cons c rest ih =>
    obtain ⟨b, w⟩ := c
    have hb : a ≠ b := fun e => h (b, w) (by simp) e.symm
    simp [Memory.read, hb, ih fun c hc => h c (by simp [hc])]

theorem Memory.erase_not_listed (m : Memory) (a : Nat) : ∀ c ∈ Memory.erase m a, c.1 ≠ a := by
  intro c hc
  simpa using (List.mem_filter.mp hc).2

theorem Memory.read_erase_of_ne {a b : Nat} (m : Memory) (h : b ≠ a) :
    Memory.read (Memory.erase m a) b = Memory.read m b := by
  induction m with
  | nil => rfl
  | cons c rest ih =>
    obtain ⟨k, w⟩ := c
    unfold Memory.erase at ih ⊢
    by_cases hk : k = a
    · subst hk; simp [Memory.read, h, ih]
    · simp [Memory.read, hk, ih]

theorem Memory.read_place_of_ne {a b : Nat} (m : Memory) (w : Byte) (h : b ≠ a) :
    Memory.read (Memory.place m a w) b = Memory.read m b := by
  induction m with
  | nil => simp [Memory.place, Memory.read, h]
  | cons c rest ih =>
    obtain ⟨k, u⟩ := c
    unfold Memory.place
    split
    · simp [Memory.read, h]
    · simp [Memory.read, ih]

theorem Memory.read_place_same {a : Nat} (m : Memory) (w : Byte) (h : ∀ c ∈ m, c.1 ≠ a) :
    Memory.read (Memory.place m a w) a = w := by
  induction m with
  | nil => simp [Memory.place, Memory.read]
  | cons c rest ih =>
    obtain ⟨k, u⟩ := c
    have hk : a ≠ k := fun e => h (k, u) (by simp) e.symm
    unfold Memory.place
    split
    · simp [Memory.read]
    · simp [Memory.read, hk, ih fun c hc => h c (by simp [hc])]

/-- Everything a write does to later reads (R52). -/
theorem Memory.read_write (m : Memory) (a b : Nat) (w : Byte) :
    Memory.read (Memory.write m a w) b = if b = a then w else Memory.read m b := by
  unfold Memory.write
  by_cases h : b = a
  · subst h
    split
    · next hw => simp [Memory.read_of_not_listed (Memory.erase_not_listed m b), hw]
    · simp [Memory.read_place_same _ _ (Memory.erase_not_listed m b)]
  · rw [if_neg h]
    split
    · exact Memory.read_erase_of_ne m h
    · rw [Memory.read_place_of_ne _ _ h, Memory.read_erase_of_ne m h]

/-- MemRead after MemWrite (R52). -/
theorem State.readByte_writeByte (s : State) (a b : Nat) (w : Byte) :
    (s.writeByte a w).readByte b = if b = a then w else s.readByte b :=
  Memory.read_write s.mem a b w

/-! ## The canonical form -/

theorem Memory.wfFrom_cons (lo b : Nat) (w : Byte) (m : Memory) :
    Memory.wfFrom lo ((b, w) :: m) = true ↔
      lo ≤ b ∧ b < 4096 ∧ w ≠ background b ∧ Memory.wfFrom (b + 1) m = true := by
  simp [Memory.wfFrom, and_assoc]

theorem Memory.wfFrom_mono {lo lo' : Nat} {m : Memory} (hl : lo' ≤ lo) (h : Memory.wfFrom lo m = true) :
    Memory.wfFrom lo' m = true := by
  cases m with
  | nil => rfl
  | cons c rest =>
    obtain ⟨b, w⟩ := c
    rw [Memory.wfFrom_cons] at h ⊢
    exact ⟨hl.trans h.1, h.2⟩

theorem Memory.wfFrom_erase {lo : Nat} {m : Memory} (a : Nat) (h : Memory.wfFrom lo m = true) :
    Memory.wfFrom lo (Memory.erase m a) = true := by
  induction m generalizing lo with
  | nil => rfl
  | cons c rest ih =>
    obtain ⟨b, w⟩ := c
    rw [Memory.wfFrom_cons] at h
    unfold Memory.erase at ih ⊢
    by_cases hb : b = a
    · simpa [hb] using Memory.wfFrom_mono (by omega) (ih h.2.2.2)
    · simpa [hb, Memory.wfFrom_cons] using ⟨h.1, h.2.1, h.2.2.1, ih h.2.2.2⟩

theorem Memory.wfFrom_place {lo a : Nat} {m : Memory} {w : Byte} (h : Memory.wfFrom lo m = true)
    (hl : lo ≤ a) (ha : a < 4096) (hw : w ≠ background a) (hm : ∀ c ∈ m, c.1 ≠ a) :
    Memory.wfFrom lo (Memory.place m a w) = true := by
  induction m generalizing lo with
  | nil => simpa [Memory.place, Memory.wfFrom_cons] using ⟨hl, ha, hw, rfl⟩
  | cons c rest ih =>
    obtain ⟨b, u⟩ := c
    have hb : b ≠ a := hm (b, u) (by simp)
    rw [Memory.wfFrom_cons] at h
    unfold Memory.place
    split
    · next hab =>
      rw [Memory.wfFrom_cons, Memory.wfFrom_cons]
      exact ⟨hl, ha, hw, by omega, h.2⟩
    · rw [Memory.wfFrom_cons]
      exact ⟨h.1, h.2.1, h.2.2.1, ih h.2.2.2 (by omega) fun c hc => hm c (by simp [hc])⟩

/-- A write inside the address space keeps the canonical form. -/
theorem Memory.wf_write {m : Memory} {a : Nat} (w : Byte) (h : Memory.wf m = true) (ha : a < 4096) :
    Memory.wf (Memory.write m a w) = true := by
  unfold Memory.wf Memory.write at *
  split
  · exact Memory.wfFrom_erase a h
  · exact Memory.wfFrom_place (Memory.wfFrom_erase a h) (by omega) ha ‹_› (Memory.erase_not_listed m a)

/-! ## Equal memories are equal data -/

theorem Memory.wfFrom_not_listed {lo a : Nat} {m : Memory} (h : Memory.wfFrom lo m = true) (ha : a < lo) :
    ∀ c ∈ m, c.1 ≠ a := by
  induction m generalizing lo with
  | nil => simp
  | cons c rest ih =>
    obtain ⟨b, w⟩ := c
    rw [Memory.wfFrom_cons] at h
    intro c hc
    rcases List.mem_cons.mp hc with rfl | hc
    · show b ≠ a; omega
    · exact ih h.2.2.2 (by omega) c hc

theorem Memory.read_of_lt {lo a : Nat} {m : Memory} (h : Memory.wfFrom lo m = true) (ha : a < lo) :
    Memory.read m a = background a :=
  Memory.read_of_not_listed (Memory.wfFrom_not_listed h ha)

theorem Memory.eq_of_read_eq_from {lo lo' : Nat} {m m' : Memory} (h : Memory.wfFrom lo m = true)
    (h' : Memory.wfFrom lo' m' = true) (hr : ∀ a, Memory.read m a = Memory.read m' a) : m = m' := by
  induction m generalizing lo lo' m' with
  | nil =>
    cases m' with
    | nil => rfl
    | cons c rest =>
      obtain ⟨b, w⟩ := c
      rw [Memory.wfFrom_cons] at h'
      exact absurd (by simpa [Memory.read] using (hr b).symm) h'.2.2.1
  | cons c rest ih =>
    obtain ⟨b, w⟩ := c
    have hc := (Memory.wfFrom_cons lo b w rest).mp h
    cases m' with
    | nil => exact absurd (by simpa [Memory.read] using hr b) hc.2.2.1
    | cons c' rest' =>
      obtain ⟨b', w'⟩ := c'
      have hc' := (Memory.wfFrom_cons lo' b' w' rest').mp h'
      rcases Nat.lt_trichotomy b b' with hlt | rfl | hgt
      · have e := hr b
        rw [Memory.read, if_pos rfl, Memory.read, if_neg (by omega),
          Memory.read_of_lt hc'.2.2.2 (by omega)] at e
        exact absurd e hc.2.2.1
      · have hw : w = w' := by simpa [Memory.read] using hr b
        subst hw
        rw [ih hc.2.2.2 hc'.2.2.2 fun a => ?_]
        by_cases ha : a = b
        · subst ha
          rw [Memory.read_of_lt hc.2.2.2 (by omega), Memory.read_of_lt hc'.2.2.2 (by omega)]
        · simpa [Memory.read, ha] using hr a
      · have e := hr b'
        rw [Memory.read, if_neg (by omega), Memory.read_of_lt hc.2.2.2 (by omega), Memory.read,
          if_pos rfl] at e
        exact absurd e.symm hc'.2.2.1

end Sys2Proof.Machine
end

