-- ==== Sys2Proof/Laws/Ops.lean ====
section
/-! SUPPORT. What each shared operation can do, said once. -/

namespace Sys2Proof.Machine

/-! ## The range check (R53) -/

/-- In range: no fault address. -/
theorem outOfRange_eq_none {i : Word} {n : Nat} : outOfRange i n = none ↔ n = 0 ∨ i.toNat + n ≤ 4096 := by
  unfold outOfRange
  split <;> simp <;> omega

/-- Out of range: the fault address is the lowest address of the transfer above 0xFFF. -/
theorem outOfRange_eq_some {i : Word} {n a : Nat} :
    outOfRange i n = some a ↔ n ≠ 0 ∧ 4096 < i.toNat + n ∧ a = max i.toNat 0x1000 := by
  unfold outOfRange
  split <;> simp <;> omega

theorem withRange_of_fits {w : Word} {n : Nat} {s : State} {body : Result} (h : n = 0 ∨ s.i.toNat + n ≤ 4096) :
    withRange w n s body = body := by
  simp [withRange, outOfRange_eq_none.mpr h]

theorem withRange_of_not_fits {w : Word} {n : Nat} {s : State} {body : Result} (h0 : n ≠ 0)
    (h : 4096 < s.i.toNat + n) : withRange w n s body = trap .memRange w (max s.i.toNat 0x1000) s := by
  simp [withRange, outOfRange_eq_some.mpr ⟨h0, h, rfl⟩]

/-! ## The stack controller (R25) -/

theorem State.push_of_lt {s : State} (v : Word) (h : s.sp.val < 16) :
    s.push v = some { s with stack := s.stack.set s.sp.val v, sp := ⟨s.sp.val + 1, by omega⟩ } := by
  simp [State.push, h]

theorem State.push_full {s : State} (v : Word) (h : s.sp.val = 16) : s.push v = none := by
  simp [State.push, h]

theorem State.pop_of_pos {s : State} (h : 0 < s.sp.val) :
    s.pop = some (s.stack[s.sp.val - 1], { s with sp := ⟨s.sp.val - 1, by omega⟩ }) := by
  simp [State.pop, h]

theorem State.pop_empty {s : State} (h : s.sp.val = 0) : s.pop = none := by
  simp [State.pop, h]

/-! ## Block transfers (R175 to R177) -/

@[simp] theorem regNumber_toNat {k : Nat} (h : k < 16) : (regNumber k).toNat = k := by
  simp [regNumber]; omega

theorem regNumber_eq_iff {k : Nat} (h : k < 16) (r : Nibble) : r = regNumber k ↔ r.toNat = k := by
  rw [← BitVec.toNat_inj, regNumber_toNat h]

/-- Storing a block changes memory only. -/
theorem State.storeBlock_eq (s : State) (base n : Nat) :
    s.storeBlock base n = { s with mem := (s.storeBlock base n).mem } := by
  induction n with
  | zero => rfl
  | succ n ih => unfold State.storeBlock; rw [ih]; rfl

theorem State.storeBlock_getV (s : State) (base n : Nat) (r : Nibble) : (s.storeBlock base n).getV r = s.getV r := by
  rw [State.storeBlock_eq]; rfl

/-- What a stored block reads as: V[a - base] inside it, the old byte outside. -/
theorem State.storeBlock_readByte (s : State) (base n a : Nat) :
    (s.storeBlock base n).readByte a =
      if base ≤ a ∧ a < base + n then s.getV (regNumber (a - base)) else s.readByte a := by
  induction n with
  | zero => simp [State.storeBlock]
  | succ n ih =>
    simp only [State.storeBlock, State.readByte_writeByte, State.storeBlock_getV, ih]
    by_cases h : a = base + n
    · subst h; simp
    · rw [if_neg h]
      congr 1
      exact propext ⟨fun h' => ⟨h'.1, by omega⟩, fun h' => ⟨h'.1, by omega⟩⟩

theorem State.storeBlock_wf {s : State} {base n : Nat} (h : s.mem.wf = true) (hn : base + n ≤ 4096) :
    (s.storeBlock base n).mem.wf = true := by
  induction n with
  | zero => exact h
  | succ n ih => exact Memory.wf_write _ (ih (by omega)) (by omega)

/-- Loading a block changes the register file only. -/
theorem State.loadBlock_eq (s : State) (base n : Nat) :
    s.loadBlock base n = { s with v := (s.loadBlock base n).v } := by
  induction n with
  | zero => rfl
  | succ n ih => unfold State.loadBlock; rw [ih]; rfl

theorem State.loadBlock_readByte (s : State) (base n a : Nat) :
    (s.loadBlock base n).readByte a = s.readByte a := by
  rw [State.loadBlock_eq]; rfl

/-- The registers after loading a block: M[base + r] for the first n, the old value for the rest. -/
theorem State.loadBlock_getV (s : State) (base : Nat) {n : Nat} (hn : n ≤ 16) (r : Nibble) :
    (s.loadBlock base n).getV r = if r.toNat < n then s.readByte (base + r.toNat) else s.getV r := by
  induction n with
  | zero => simp [State.loadBlock]
  | succ n ih =>
    simp only [State.loadBlock, State.getV_setV, State.loadBlock_readByte, ih (by omega),
      regNumber_eq_iff (show n < 16 by omega)]
    by_cases h : r.toNat = n
    · simp [h]
    · rw [if_neg h]
      congr 1
      exact propext (by omega)

/-! ## Keys (R212) -/

theorem mem_heldKeys {keys : BitVec 16} {k : Nat} : k ∈ heldKeys keys ↔ k < 16 ∧ keys.getLsbD k = true := by
  simp [heldKeys]

/-- A key is chosen exactly when one is held. -/
theorem chooseKey_eq_none {keys : BitVec 16} {choice : Nibble} :
    chooseKey keys choice = none ↔ ∀ k, k < 16 → keys.getLsbD k = false := by
  have hk : heldKeys keys = [] ↔ ∀ k, k < 16 → keys.getLsbD k = false := by
    simp [heldKeys, List.filter_eq_nil_iff]
  rw [← hk]
  unfold chooseKey
  rcases h : heldKeys keys with _ | ⟨a, l⟩
  · simp
  · simp only [Option.map_eq_none_iff, List.getElem?_eq_none_iff]
    have := Nat.mod_lt choice.toNat (show 0 < (a :: l).length by simp)
    simp at this ⊢
    omega

/-- The chosen key is a held one. -/
theorem chooseKey_held {keys : BitVec 16} {choice : Nibble} {b : Byte} (h : chooseKey keys choice = some b) :
    b.toNat < 16 ∧ keys.getLsbD b.toNat = true := by
  obtain ⟨k, hk, rfl⟩ := Option.map_eq_some_iff.mp h
  obtain ⟨hlt, hheld⟩ := mem_heldKeys.mp (List.mem_of_getElem? hk)
  have : (BitVec.ofNat 8 k).toNat = k := by simp; omega
  rw [this]
  exact ⟨hlt, hheld⟩

/-- Every held key is chosen by some draw: the choice is free. -/
theorem chooseKey_surjective {keys : BitVec 16} {k : Nat} (hk : k < 16) (h : keys.getLsbD k = true) :
    ∃ choice, chooseKey keys choice = some (BitVec.ofNat 8 k) := by
  obtain ⟨n, hn, e⟩ := List.getElem_of_mem (mem_heldKeys.mpr ⟨hk, h⟩)
  have hlen : (heldKeys keys).length ≤ 16 := by
    simpa [heldKeys] using List.length_filter_le (fun k => keys.getLsbD k) (List.range 16)
  refine ⟨BitVec.ofNat 4 n, ?_⟩
  have hn' : (BitVec.ofNat 4 n).toNat = n := by simp; omega
  simp [chooseKey, hn', Nat.mod_eq_of_lt hn, List.getElem?_eq_getElem hn, e]

/-! ## The step (R9, R101) -/

/-- Everything a cycle of a running engine can be. -/
theorem cycle_cases {s t : State} (h : cycle s = .next t) :
    (s.env.quit = true ∧ t = { s with run := .halted .quit }) ∨
    (s.env.quit = false ∧ s.fetch = none ∧ t = s.raise .fetchRange 0 s.pc.toNat) ∨
    (∃ w e, s.env.quit = false ∧ s.fetch = some w ∧ decode w = .error e ∧ t = s.raise .decode w w.toNat) ∨
    (∃ w i u, s.env.quit = false ∧ s.fetch = some w ∧ decode w = .ok i ∧ exec i s.beginCycle = .next u ∧
      t = s.endCycle u) := by
  unfold cycle at h
  split at h
  · next hq => left; cases h; exact ⟨hq, rfl⟩
  · next hq =>
    have hq : s.env.quit = false := by simpa using hq
    split at h
    · next hf => cases h; exact .inr (.inl ⟨hq, hf, rfl⟩)
    · next w hf =>
      split at h
      · next e he => cases h; exact .inr (.inr (.inl ⟨w, e, hq, hf, he, rfl⟩))
      · next i hi =>
        split at h
        · next u hu => cases h; exact .inr (.inr (.inr ⟨w, i, u, hq, hf, hi, hu, rfl⟩))
        · cases h
        · cases h

/-- Everything a step can be: a tick, or a cycle of a running engine. -/
theorem step_cases {s t : State} (h : step s = .next t) :
    (s.env.agent = .timer ∧ t = s.tick.serveEnv) ∨
    (s.env.agent = .cycle ∧ s.run = .running ∧ ∃ u, cycle s = .next u ∧ t = u.serveEnv) := by
  unfold step at h
  split at h
  · next ha =>
    unfold cycleTurn at h
    split at h
    · cases h
    · next hr =>
      split at h
      · next u hu => cases h; exact .inr ⟨ha, hr, u, hu, rfl⟩
      · cases h
      · cases h
  · next ha => cases h; exact .inl ⟨ha, rfl⟩

end Sys2Proof.Machine
end

