-- ==== Sys2Proof/Laws/Display.lean ====
section
/-! SUPPORT. What the sprite loops leave on the screen: each pixel XORed with whether a set sprite pixel lands
on it, and the collision (R192 to R195). -/

namespace Sys2Proof.Machine

theorem FrameBuffer.pixel_toggle (f : FrameBuffer) (r r' : Fin 32) (c c' : Fin 64) :
    (f.toggle r c).pixel r' c' = (f.pixel r' c' ^^ decide (r' = r ∧ c' = c)) := by
  unfold FrameBuffer.toggle FrameBuffer.pixel
  by_cases hr : r' = r
  · subst hr
    by_cases hc : c' = c
    · subst hc; simp
    · have : c.val ≠ c'.val := fun e => hc (Fin.ext e.symm)
      simp [hc, this]
  · have : r.val ≠ r'.val := fun e => hr (Fin.ext e.symm)
    simp [hr, this]

/-- What one set sprite pixel at column px, row py hits. -/
abbrev lands (clip : Bool) (px py : Nat) (pr pc : Nat) : Prop :=
  (clip = true → px ≤ 63 ∧ py ≤ 31) ∧ px % 64 = pc ∧ py % 32 = pr

theorem plot_pixel (clip : Bool) (px py : Nat) (acc : FrameBuffer × Bool) (r : Fin 32) (c : Fin 64) :
    (plot clip px py acc).1.pixel r c = (acc.1.pixel r c ^^ decide (lands clip px py r c)) := by
  unfold plot lands
  split
  · next h =>
    have : ¬ (clip = true → px ≤ 63 ∧ py ≤ 31) := by
      simp at h; intro h'; have := h' h.1; omega
    simp [this]
  · next h =>
    have hc : clip = true → px ≤ 63 ∧ py ≤ 31 := by
      intro hc; simp [hc] at h; omega
    rw [FrameBuffer.pixel_toggle]
    congr 1
    simp only [decide_eq_decide, Fin.ext_iff, Fin.val_ofNat]
    constructor
    · rintro ⟨h1, h2⟩; exact ⟨hc, by omega, by omega⟩
    · rintro ⟨-, h1, h2⟩; exact ⟨by omega, by omega⟩

theorem plot_collision (clip : Bool) (px py : Nat) (acc : FrameBuffer × Bool) :
    (plot clip px py acc).2 = true ↔
      acc.2 = true ∨ ∃ (r : Fin 32) (c : Fin 64), lands clip px py r c ∧ acc.1.pixel r c = true := by
  unfold plot lands
  split
  · next h =>
    have : ¬ (clip = true → px ≤ 63 ∧ py ≤ 31) := by
      simp at h; intro h'; have := h' h.1; omega
    simp [this]
  · next h =>
    have hc : clip = true → px ≤ 63 ∧ py ≤ 31 := by
      intro hc; simp [hc] at h; omega
    simp only [Bool.or_eq_true]
    refine or_congr_right ⟨fun h => ⟨_, _, ⟨hc, ?_, ?_⟩, h⟩, ?_⟩
    · simp
    · simp
    · rintro ⟨r, c, ⟨-, h1, h2⟩, h3⟩
      have e1 : Fin.ofNat 32 py = r := Fin.ext (by simpa using h2)
      have e2 : Fin.ofNat 64 px = c := Fin.ext (by simpa using h1)
      rw [e1, e2]; exact h3

/-- Where the first n columns of a sprite row land. -/
abbrev rowCovers (clip : Bool) (cx py : Nat) (b : Byte) (n pr pc : Nat) : Prop :=
  ∃ c, c < n ∧ spriteBit b c = true ∧ lands clip (cx + c) py pr pc

theorem rowCovers_succ (clip : Bool) (cx py : Nat) (b : Byte) (n pr pc : Nat) :
    rowCovers clip cx py b (n + 1) pr pc ↔
      rowCovers clip cx py b n pr pc ∨ (spriteBit b n = true ∧ lands clip (cx + n) py pr pc) := by
  constructor
  · rintro ⟨c, hc, h⟩
    rcases Nat.lt_succ_iff_lt_or_eq.mp hc with h' | rfl
    · exact .inl ⟨c, h', h⟩
    · exact .inr h
  · rintro (⟨c, hc, h⟩ | h)
    · exact ⟨c, by omega, h⟩
    · exact ⟨n, by omega, h⟩

/-- A new column lands where no earlier one did (R194). -/
theorem not_rowCovers_of_lands {clip : Bool} {cx py : Nat} {b : Byte} {n pr pc : Nat} (hn : n < 64)
    (h : lands clip (cx + n) py pr pc) : ¬ rowCovers clip cx py b n pr pc := by
  rintro ⟨c, hc, -, -, h1, -⟩
  have := h.2.1
  omega

theorem drawRow_spec (clip : Bool) (cx py : Nat) (b : Byte) (acc : FrameBuffer × Bool) (n : Nat) (hn : n ≤ 8) :
    (∀ r c, (drawRow clip cx py b acc n).1.pixel r c =
      (acc.1.pixel r c ^^ decide (rowCovers clip cx py b n r.val c.val))) ∧
    ((drawRow clip cx py b acc n).2 = true ↔
      acc.2 = true ∨ ∃ (r : Fin 32) (c : Fin 64), rowCovers clip cx py b n r c ∧ acc.1.pixel r c = true) := by
  induction n with
  | zero => simp [drawRow, rowCovers]
  | succ n ih =>
    obtain ⟨ihp, ihc⟩ := ih (by omega)
    unfold drawRow
    by_cases hb : spriteBit b n = true
    · simp only [hb, if_true]
      constructor
      · intro r c
        rw [plot_pixel, ihp, Bool.xor_assoc]
        congr 1
        by_cases hl : lands clip (cx + n) py r c
        · have := not_rowCovers_of_lands (b := b) (by omega) hl
          simp [rowCovers_succ, hb, hl, this]
        · simp only [rowCovers_succ, hb, hl, and_false, or_false, decide_false, Bool.xor_false]
      · rw [plot_collision, ihc]
        simp only [rowCovers_succ, hb, true_and]
        constructor
        · rintro ((h | ⟨r, c, h, hp⟩) | ⟨r, c, hl, hp⟩)
          · exact .inl h
          · exact .inr ⟨r, c, .inl h, hp⟩
          · have := not_rowCovers_of_lands (b := b) (by omega) hl
            rw [ihp] at hp
            exact .inr ⟨r, c, .inr hl, by simpa [this] using hp⟩
        · rintro (h | ⟨r, c, h | hl, hp⟩)
          · exact .inl (.inl h)
          · exact .inl (.inr ⟨r, c, h, hp⟩)
          · have := not_rowCovers_of_lands (b := b) (by omega) hl
            exact .inr ⟨r, c, hl, by rw [ihp]; simpa [this] using hp⟩
    · have e : ∀ r c : Nat, rowCovers clip cx py b (n + 1) r c ↔ rowCovers clip cx py b n r c := by
        intro r c; rw [rowCovers_succ]; simp [hb]
      simp only [hb, if_false, Bool.false_eq_true]
      exact ⟨fun r c => by rw [ihp]; simp only [e], by rw [ihc]; simp only [e]⟩

theorem covers_succ (clip : Bool) (cx cy : Nat) (row : Nat → Byte) (n pr pc : Nat) :
    covers clip cx cy row (n + 1) pr pc ↔
      covers clip cx cy row n pr pc ∨ rowCovers clip cx (cy + n) (row n) 8 pr pc := by
  constructor
  · rintro ⟨r, hr, h⟩
    rcases Nat.lt_succ_iff_lt_or_eq.mp hr with h' | rfl
    · exact .inl ⟨r, h', h⟩
    · exact .inr h
  · rintro (⟨r, hr, h⟩ | h)
    · exact ⟨r, by omega, h⟩
    · exact ⟨n, by omega, h⟩

/-- A new row lands where no earlier one did (R194). -/
theorem not_covers_of_rowCovers {clip : Bool} {cx cy : Nat} {row : Nat → Byte} {b : Byte} {n pr pc : Nat}
    (hn : n < 32) (h : rowCovers clip cx (cy + n) b 8 pr pc) : ¬ covers clip cx cy row n pr pc := by
  rintro ⟨r, hr, c, -, -, -, -, h1⟩
  obtain ⟨_, -, -, -, -, h2⟩ := h
  omega

/-- The whole sprite: every pixel is XORed with whether a set sprite pixel lands on it, and the collision is
that some set sprite pixel lands on a pixel that was 1 (R195). -/
theorem drawSprite_spec (clip : Bool) (cx cy : Nat) (row : Nat → Byte) (acc : FrameBuffer × Bool) (n : Nat)
    (hn : n ≤ 32) :
    (∀ r c, (drawSprite clip cx cy row acc n).1.pixel r c =
      (acc.1.pixel r c ^^ decide (covers clip cx cy row n r.val c.val))) ∧
    ((drawSprite clip cx cy row acc n).2 = true ↔
      acc.2 = true ∨ ∃ (r : Fin 32) (c : Fin 64), covers clip cx cy row n r c ∧ acc.1.pixel r c = true) := by
  induction n with
  | zero => simp [drawSprite, covers]
  | succ n ih =>
    obtain ⟨ihp, ihc⟩ := ih (by omega)
    obtain ⟨hp, hc⟩ := drawRow_spec clip cx (cy + n) (row n) (drawSprite clip cx cy row acc n) 8 (le_refl 8)
    unfold drawSprite
    constructor
    · intro r c
      rw [hp, ihp, Bool.xor_assoc]
      congr 1
      by_cases hl : rowCovers clip cx (cy + n) (row n) 8 r c
      · have := not_covers_of_rowCovers (row := row) (by omega) hl
        simp only [covers_succ, hl, this, decide_false, or_true, decide_true, Bool.false_xor]
      · simp only [covers_succ, hl, or_false, decide_false, Bool.xor_false]
    · rw [hc, ihc]
      simp only [covers_succ]
      constructor
      · rintro ((h | ⟨r, c, h, hp⟩) | ⟨r, c, hl, hp⟩)
        · exact .inl h
        · exact .inr ⟨r, c, .inl h, hp⟩
        · have := not_covers_of_rowCovers (row := row) (by omega) hl
          rw [ihp] at hp
          exact .inr ⟨r, c, .inr hl, by simpa only [this, decide_false, Bool.xor_false] using hp⟩
      · rintro (h | ⟨r, c, h | hl, hp⟩)
        · exact .inl (.inl h)
        · exact .inl (.inr ⟨r, c, h, hp⟩)
        · have := not_covers_of_rowCovers (row := row) (by omega) hl
          exact .inr ⟨r, c, hl, by rw [ihp]; simpa only [this, decide_false, Bool.xor_false] using hp⟩

end Sys2Proof.Machine
end

