-- ==== Sys2Proof/Laws/Exec.lean ====
section
/-! SUPPORT. The instructions whose effect has a condition, as equations: where they complete, and in what
state. -/

namespace Sys2Proof.Machine

theorem execRet_of_pos (ign : Nibble) {s : State} (h : 0 < s.sp.val) :
    execRet ign s =
      complete (.jumpTo (s.stack[s.sp.val - 1] + 2)) { s with sp := ⟨s.sp.val - 1, by omega⟩ } := by
  simp only [execRet, State.pop_of_pos h]

theorem execCall_of_lt (nnn : Addr12) {s : State} (h : s.sp.val < 16) :
    execCall nnn s =
      complete (.jumpTo (addressOperand nnn))
        { s with stack := s.stack.set s.sp.val s.pc, sp := ⟨s.sp.val + 1, by omega⟩ } := by
  simp only [execCall, State.push_of_lt _ h]

theorem execSys_of_nop (nnn : Addr12) {s : State} (h : s.sysMode = .nop) : execSys nnn s = complete .advance s := by
  simp only [execSys, h]

theorem execSys_of_fault (nnn : Addr12) {s : State} (h : s.sysMode = .fault) :
    execSys nnn s = trap .sysUnsupported (encode (.sys nnn)) (encode (.sys nnn)).toNat s := by
  unfold execSys
  split
  · next h' => rw [h] at h'; cases h'
  · rfl

theorem execLdB_of_fits (x : Nibble) {s : State} (h : s.i.toNat + 2 ≤ 0xFFF) :
    execLdB x s = complete .advance
      (((s.writeByte s.i.toNat (hundreds (s.getV x))).writeByte (s.i.toNat + 1) (tens (s.getV x))).writeByte
        (s.i.toNat + 2) (units (s.getV x))) :=
  withRange_of_fits (by omega)

theorem execStoreRegs_of_fits (x : Nibble) {s : State} (h : s.i.toNat + x.toNat ≤ 0xFFF) :
    execStoreRegs x s = complete .advance
      ((s.storeBlock s.i.toNat (x.toNat + 1)).setI (s.i + BitVec.ofNat 16 (x.toNat + 1))) :=
  withRange_of_fits (by omega)

theorem execLoadRegs_of_fits (x : Nibble) {s : State} (h : s.i.toNat + x.toNat ≤ 0xFFF) :
    execLoadRegs x s = complete .advance
      ((s.loadBlock s.i.toNat (x.toNat + 1)).setI (s.i + BitVec.ofNat 16 (x.toNat + 1))) :=
  withRange_of_fits (by omega)

theorem execDrw_of_fits (x y n : Nibble) {s : State} (h : n = 0 ∨ s.i.toNat + (n.toNat - 1) ≤ 0xFFF) :
    execDrw x y n s = complete .advance
      ((s.setFb (s.spriteResult x y n).1).markDraw.setV flagReg (flagByte (s.spriteResult x y n).2)) := by
  refine withRange_of_fits ?_
  rcases h with rfl | h
  · exact .inl rfl
  · omega

/-! ## Everything an instruction can do -/

/-- Everything an instruction's next state can be: the taken fault, or the constructor's own effect. The value a
register receives is left open where only the frame matters; the result lemmas give it. -/
theorem exec_cases {i : Instr} {s t : State} (h : exec i s = .next t) :
    (∃ c info, t = s.raise c (encode i) info) ∨
    match i with
    | .sys _ | .jmp _ | .jmpV0 _ | .seImm _ _ | .sneImm _ _ | .seReg _ _ _ | .sneReg _ _ _ | .skp _ | .sknp _ =>
      ∃ a, t = s.applyPcAction a
    | .cls _ => t = (s.setFb FrameBuffer.blank).applyPcAction .advance
    | .ret _ => ∃ h : 0 < s.sp.val, t = State.applyPcAction { s with sp := ⟨s.sp.val - 1, by omega⟩ }
        (.jumpTo (s.stack[s.sp.val - 1] + 2))
    | .call nnn => ∃ h : s.sp.val < 16, t = State.applyPcAction
        { s with stack := s.stack.set s.sp.val s.pc, sp := ⟨s.sp.val + 1, by omega⟩ }
        (.jumpTo (addressOperand nnn))
    | .ldImm x _ | .addImm x _ | .ldReg x _ | .rnd x _ | .ldVxDt x => ∃ r, t = (s.setV x r).applyPcAction .advance
    | .ldVxK x => (∃ r, t = (s.setV x r).applyPcAction .advance) ∨ t = s
    | .orReg x _ | .andReg x _ | .xorReg x _ | .addReg x _ | .subReg x _ | .subn x _ =>
      ∃ r f, t = ((s.setV x r).setV flagReg f).applyPcAction .advance
    | .shr x y | .shl x y =>
      ∃ r f, t = (((s.copyShiftOperand x y).setV x r).setV flagReg f).applyPcAction .advance
    | .ldI nnn => t = (s.setI (addressOperand nnn)).applyPcAction .advance
    | .addI x => t = (s.setI (s.i + wideOperand (s.getV x))).applyPcAction .advance
    | .ldF x => t = (s.setI (glyphAddress (s.getV x))).applyPcAction .advance
    | .ldDtVx x => t = (s.setDt (s.getV x)).applyPcAction .advance
    | .ldStVx x => t = (s.setSt (s.getV x)).applyPcAction .advance
    | .ldB x => s.i.toNat + 2 ≤ 0xFFF ∧
        t = (((s.writeByte s.i.toNat (hundreds (s.getV x))).writeByte (s.i.toNat + 1) (tens (s.getV x))).writeByte
          (s.i.toNat + 2) (units (s.getV x))).applyPcAction .advance
    | .storeRegs x => s.i.toNat + x.toNat ≤ 0xFFF ∧
        t = ((s.storeBlock s.i.toNat (x.toNat + 1)).setI (s.i + BitVec.ofNat 16 (x.toNat + 1))).applyPcAction
          .advance
    | .loadRegs x => s.i.toNat + x.toNat ≤ 0xFFF ∧
        t = ((s.loadBlock s.i.toNat (x.toNat + 1)).setI (s.i + BitVec.ofNat 16 (x.toNat + 1))).applyPcAction
          .advance
    | .drw x y n =>
      t = ((s.setFb (s.spriteResult x y n).1).markDraw.setV flagReg (flagByte (s.spriteResult x y n).2)).applyPcAction
        .advance := by
  cases i <;> simp only [exec] at h ⊢
  case sys =>
    simp only [execSys] at h
    split at h <;> cases h
    · exact .inr ⟨_, rfl⟩
    · exact .inl ⟨_, _, rfl⟩
  case ret =>
    by_cases hp : 0 < s.sp.val
    · rw [execRet_of_pos _ hp] at h; cases h; exact .inr ⟨hp, rfl⟩
    · simp only [execRet, State.pop_empty (show s.sp.val = 0 by omega)] at h; cases h; exact .inl ⟨_, _, rfl⟩
  case call =>
    by_cases hp : s.sp.val < 16
    · rw [execCall_of_lt _ hp] at h; cases h; exact .inr ⟨hp, rfl⟩
    · simp only [execCall, State.push_full _ (show s.sp.val = 16 by omega)] at h; cases h; exact .inl ⟨_, _, rfl⟩
  case ldVxK =>
    unfold execLdVxK at h
    split at h <;> cases h
    · exact .inr (.inr rfl)
    · exact .inr (.inl ⟨_, rfl⟩)
  case skp | sknp =>
    simp only [execSkp, execSknp, withKeyIndex] at h
    split at h <;> cases h
    · exact .inl ⟨_, _, rfl⟩
    · exact .inr ⟨_, rfl⟩
  case drw =>
    unfold execDrw withRange at h
    split at h <;> cases h
    · exact .inl ⟨_, _, rfl⟩
    · exact .inr rfl
  case ldB =>
    by_cases hp : s.i.toNat + 2 ≤ 0xFFF
    · rw [execLdB_of_fits _ hp] at h; cases h; exact .inr ⟨hp, rfl⟩
    · simp only [execLdB] at h
      rw [withRange_of_not_fits (by omega) (by omega)] at h; cases h; exact .inl ⟨_, _, rfl⟩
  case storeRegs x =>
    by_cases hp : s.i.toNat + x.toNat ≤ 0xFFF
    · rw [execStoreRegs_of_fits _ hp] at h; cases h; exact .inr ⟨hp, rfl⟩
    · rw [execStoreRegs, withRange_of_not_fits (by omega) (by omega)] at h; cases h; exact .inl ⟨_, _, rfl⟩
  case loadRegs x =>
    by_cases hp : s.i.toNat + x.toNat ≤ 0xFFF
    · rw [execLoadRegs_of_fits _ hp] at h; cases h; exact .inr ⟨hp, rfl⟩
    · rw [execLoadRegs, withRange_of_not_fits (by omega) (by omega)] at h; cases h; exact .inl ⟨_, _, rfl⟩
  all_goals
    cases h
    first
    | exact .inr rfl
    | exact .inr ⟨_, rfl⟩
    | exact .inr ⟨_, _, rfl⟩

/-! ## The two ways an ALU instruction ends -/

theorem onlyVAndPc_of_eq {s t : State} {l : List Nibble} (h : sameVExcept l s t)
    (e : t = { s with v := t.v, pc := t.pc }) : onlyVAndPc l s t := by
  refine ⟨h, by rw [e], fun a => by rw [e]; rfl, ?_⟩
  rw [e]
  exact ⟨rfl, rfl, ⟨rfl, rfl⟩, ⟨rfl, rfl⟩, ⟨rfl, rfl, rfl⟩, rfl, rfl, rfl, rfl, rfl⟩

/-- The result in Vx, PC advanced, nothing else changed. -/
theorem writeResult_spec (x : Nibble) (r : Byte) (s : State) :
    ∃ t, writeResult x r s = .next t ∧ t.getV x = r ∧ t.pc = s.pc + 2 ∧ onlyVAndPc [x] s t := by
  refine ⟨_, rfl, by simp, rfl, onlyVAndPc_of_eq (fun r' hr => ?_) rfl⟩
  simp at hr
  simp [State.getV_setV, hr]

/-- The result in Vx unless x = F, the flag in VF, PC advanced, nothing else changed. -/
theorem writeResultAndFlag_spec (x : Nibble) (r : Byte) (f : Bool) (s : State) :
    ∃ t, writeResultAndFlag x r f s = .next t ∧ (x ≠ 0xF → t.getV x = r) ∧ t.getV 0xF = flagByte f ∧
      t.pc = s.pc + 2 ∧ onlyVAndPc [x, 0xF] s t := by
  refine ⟨_, rfl, fun h => ?_, by simp, rfl, onlyVAndPc_of_eq (fun r' hr => ?_) rfl⟩
  · simp at h
    simp [State.getV_setV, h]
  · simp at hr
    simp [State.getV_setV, hr]

end Sys2Proof.Machine
end

