-- ==== Sys2Proof/Laws/PerInstr.lean ====
section
/-! SUPPORT. One family of statements per instruction: the encoder's word lies in the instruction's row of the
opcode map (R75). -/

namespace Sys2Proof.Laws

/-- The encoded word selects the row that R75 gives the instruction: word AND mask = match. -/
def EncodedInRow.Statement (i : Instr) : Prop := (opcodeRow i).selectedBy (encode i) = true

/-- A mask that keeps nibble 1 sees only the family. -/
theorem mask_family (w : Word) : w &&& 0xF000 = fieldOp w ++ (0#12) := by
  apply BitVec.eq_of_getLsbD_eq
  intro k hk
  simp only [fieldOp, BitVec.getLsbD_and, BitVec.getLsbD_append, BitVec.getLsbD_extractLsb']
  interval_cases k <;> simp

/-- A mask that keeps nibbles 1 and 4 sees only them. -/
theorem mask_family_n (w : Word) : w &&& 0xF00F = fieldOp w ++ (0#8) ++ fieldN w := by
  apply BitVec.eq_of_getLsbD_eq
  intro k hk
  simp only [fieldOp, fieldN, BitVec.getLsbD_and, BitVec.getLsbD_append, BitVec.getLsbD_extractLsb']
  interval_cases k <;> simp

/-- A mask that keeps nibble 1 and the low byte sees only them. -/
theorem mask_family_kk (w : Word) : w &&& 0xF0FF = fieldOp w ++ (0#4) ++ fieldKk w := by
  apply BitVec.eq_of_getLsbD_eq
  intro k hk
  simp only [fieldOp, fieldKk, BitVec.getLsbD_and, BitVec.getLsbD_append, BitVec.getLsbD_extractLsb']
  interval_cases k <;> simp

theorem selected_packA (op : Nibble) (nnn : Addr12) {b : Word} (h : op ++ (0#12) = b) :
    (OpcodeRow.mk b 0xF000).selectedBy (packA op nnn) = true := by
  subst h; simp only [OpcodeRow.selectedBy, mask_family, fieldOp_packA, beq_self_eq_true]

theorem selected_packXK (op x : Nibble) (kk : Byte) {b : Word} (h : op ++ (0#12) = b) :
    (OpcodeRow.mk b 0xF000).selectedBy (packXK op x kk) = true := by
  subst h; simp only [OpcodeRow.selectedBy, mask_family, fieldOp_packXK, beq_self_eq_true]

theorem selected_packXYN (op x y n : Nibble) {b : Word} (h : op ++ (0#12) = b) :
    (OpcodeRow.mk b 0xF000).selectedBy (packXYN op x y n) = true := by
  subst h; simp only [OpcodeRow.selectedBy, mask_family, fieldOp_packXYN, beq_self_eq_true]

theorem selected_packXYN_n (op x y n : Nibble) {b : Word} (h : op ++ (0#8) ++ n = b) :
    (OpcodeRow.mk b 0xF00F).selectedBy (packXYN op x y n) = true := by
  subst h; simp only [OpcodeRow.selectedBy, mask_family_n, fieldOp_packXYN, fieldN_packXYN, beq_self_eq_true]

theorem selected_packXK_kk (op x : Nibble) (kk : Byte) {b : Word} (h : op ++ (0#4) ++ kk = b) :
    (OpcodeRow.mk b 0xF0FF).selectedBy (packXK op x kk) = true := by
  subst h; simp only [OpcodeRow.selectedBy, mask_family_kk, fieldOp_packXK, fieldKk_packXK, beq_self_eq_true]

theorem EncodedInRow.sys (nnn : Addr12) : EncodedInRow.Statement (.sys nnn) :=
  selected_packA _ _ rfl

theorem EncodedInRow.cls (ign : Nibble) : EncodedInRow.Statement (.cls ign) :=
  selected_packXK_kk _ _ _ rfl

theorem EncodedInRow.ret (ign : Nibble) : EncodedInRow.Statement (.ret ign) :=
  selected_packXK_kk _ _ _ rfl

theorem EncodedInRow.jmp (nnn : Addr12) : EncodedInRow.Statement (.jmp nnn) :=
  selected_packA _ _ rfl

theorem EncodedInRow.call (nnn : Addr12) : EncodedInRow.Statement (.call nnn) :=
  selected_packA _ _ rfl

theorem EncodedInRow.seImm (x : Nibble) (kk : Byte) : EncodedInRow.Statement (.seImm x kk) :=
  selected_packXK _ _ _ rfl

theorem EncodedInRow.sneImm (x : Nibble) (kk : Byte) : EncodedInRow.Statement (.sneImm x kk) :=
  selected_packXK _ _ _ rfl

theorem EncodedInRow.seReg (x y ign : Nibble) : EncodedInRow.Statement (.seReg x y ign) :=
  selected_packXYN _ _ _ _ rfl

theorem EncodedInRow.ldImm (x : Nibble) (kk : Byte) : EncodedInRow.Statement (.ldImm x kk) :=
  selected_packXK _ _ _ rfl

theorem EncodedInRow.addImm (x : Nibble) (kk : Byte) : EncodedInRow.Statement (.addImm x kk) :=
  selected_packXK _ _ _ rfl

theorem EncodedInRow.ldReg (x y : Nibble) : EncodedInRow.Statement (.ldReg x y) :=
  selected_packXYN_n _ _ _ _ rfl

theorem EncodedInRow.orReg (x y : Nibble) : EncodedInRow.Statement (.orReg x y) :=
  selected_packXYN_n _ _ _ _ rfl

theorem EncodedInRow.andReg (x y : Nibble) : EncodedInRow.Statement (.andReg x y) :=
  selected_packXYN_n _ _ _ _ rfl

theorem EncodedInRow.xorReg (x y : Nibble) : EncodedInRow.Statement (.xorReg x y) :=
  selected_packXYN_n _ _ _ _ rfl

theorem EncodedInRow.addReg (x y : Nibble) : EncodedInRow.Statement (.addReg x y) :=
  selected_packXYN_n _ _ _ _ rfl

theorem EncodedInRow.subReg (x y : Nibble) : EncodedInRow.Statement (.subReg x y) :=
  selected_packXYN_n _ _ _ _ rfl

theorem EncodedInRow.shr (x y : Nibble) : EncodedInRow.Statement (.shr x y) :=
  selected_packXYN_n _ _ _ _ rfl

theorem EncodedInRow.subn (x y : Nibble) : EncodedInRow.Statement (.subn x y) :=
  selected_packXYN_n _ _ _ _ rfl

theorem EncodedInRow.shl (x y : Nibble) : EncodedInRow.Statement (.shl x y) :=
  selected_packXYN_n _ _ _ _ rfl

theorem EncodedInRow.sneReg (x y ign : Nibble) : EncodedInRow.Statement (.sneReg x y ign) :=
  selected_packXYN _ _ _ _ rfl

theorem EncodedInRow.ldI (nnn : Addr12) : EncodedInRow.Statement (.ldI nnn) :=
  selected_packA _ _ rfl

theorem EncodedInRow.jmpV0 (nnn : Addr12) : EncodedInRow.Statement (.jmpV0 nnn) :=
  selected_packA _ _ rfl

theorem EncodedInRow.rnd (x : Nibble) (kk : Byte) : EncodedInRow.Statement (.rnd x kk) :=
  selected_packXK _ _ _ rfl

theorem EncodedInRow.drw (x y n : Nibble) : EncodedInRow.Statement (.drw x y n) :=
  selected_packXYN _ _ _ _ rfl

theorem EncodedInRow.skp (x : Nibble) : EncodedInRow.Statement (.skp x) :=
  selected_packXK_kk _ _ _ rfl

theorem EncodedInRow.sknp (x : Nibble) : EncodedInRow.Statement (.sknp x) :=
  selected_packXK_kk _ _ _ rfl

theorem EncodedInRow.ldVxDt (x : Nibble) : EncodedInRow.Statement (.ldVxDt x) :=
  selected_packXK_kk _ _ _ rfl

theorem EncodedInRow.ldVxK (x : Nibble) : EncodedInRow.Statement (.ldVxK x) :=
  selected_packXK_kk _ _ _ rfl

theorem EncodedInRow.ldDtVx (x : Nibble) : EncodedInRow.Statement (.ldDtVx x) :=
  selected_packXK_kk _ _ _ rfl

theorem EncodedInRow.ldStVx (x : Nibble) : EncodedInRow.Statement (.ldStVx x) :=
  selected_packXK_kk _ _ _ rfl

theorem EncodedInRow.addI (x : Nibble) : EncodedInRow.Statement (.addI x) :=
  selected_packXK_kk _ _ _ rfl

theorem EncodedInRow.ldF (x : Nibble) : EncodedInRow.Statement (.ldF x) :=
  selected_packXK_kk _ _ _ rfl

theorem EncodedInRow.ldB (x : Nibble) : EncodedInRow.Statement (.ldB x) :=
  selected_packXK_kk _ _ _ rfl

theorem EncodedInRow.storeRegs (x : Nibble) : EncodedInRow.Statement (.storeRegs x) :=
  selected_packXK_kk _ _ _ rfl

theorem EncodedInRow.loadRegs (x : Nibble) : EncodedInRow.Statement (.loadRegs x) :=
  selected_packXK_kk _ _ _ rfl

end Sys2Proof.Laws
end

