-- ==== Sys2Proof/Tests/Slice0.lean ====
section
/-! SUPPORT. Own tests. Expected values are those of spec/95_test_vectors.md and of the examples in the rules, or
words written out bit by bit from spec/30_encoding.md R75. -/

namespace Sys2Proof.Tests

open Sys2Proof.Machine

/-! ## Well-formedness (R75 row 1) -/

/-- SYS cannot carry the words of CLS. -/
theorem test_sys_e0_ill_formed : (Instr.sys 0x0E0).wellFormed = false := by decide
/-- SYS cannot carry the words of RET, whatever its second nibble. -/
theorem test_sys_ee_ill_formed : (Instr.sys 0x1EE).wellFormed = false := by decide
theorem test_sys_next_to_cls_well_formed :
    (Instr.sys 0x0E1).wellFormed = true ∧ (Instr.sys 0xFED).wellFormed = true := by decide
/-- The refused terms have the words of other instructions. -/
theorem test_ill_formed_words :
    decode (encode (.sys 0x1EE)) = .ok (.ret 1) ∧ decode (encode (.sys 0x0E0)) = .ok (.cls 0) := ⟨rfl, rfl⟩

/-! ## Decoding: each row's word, bit by bit (R75) -/

theorem test_decode_sys : decode 0b0000_0001_0010_0011 = .ok (.sys 0x123) := rfl
theorem test_decode_cls : decode 0b0000_0000_1110_0000 = .ok (.cls 0) := rfl
theorem test_decode_ret : decode 0b0000_0000_1110_1110 = .ok (.ret 0) := rfl
theorem test_decode_jmp : decode 0b0001_1010_1011_1100 = .ok (.jmp 0xABC) := rfl
theorem test_decode_call : decode 0b0010_0100_0000_0001 = .ok (.call 0x401) := rfl
theorem test_decode_se_imm : decode 0b0011_0011_0100_0010 = .ok (.seImm 3 0x42) := rfl
theorem test_decode_sne_imm : decode 0b0100_0011_0100_0010 = .ok (.sneImm 3 0x42) := rfl
theorem test_decode_se_reg : decode 0b0101_0001_0010_0001 = .ok (.seReg 1 2 1) := rfl
theorem test_decode_ld_imm : decode 0b0110_1010_0010_1111 = .ok (.ldImm 0xA 0x2F) := rfl
theorem test_decode_add_imm : decode 0b0111_0001_0000_0011 = .ok (.addImm 1 3) := rfl
theorem test_decode_ld_reg : decode 0b1000_0001_0010_0000 = .ok (.ldReg 1 2) := rfl
theorem test_decode_or : decode 0b1000_0001_0010_0001 = .ok (.orReg 1 2) := rfl
theorem test_decode_and : decode 0b1000_0001_0010_0010 = .ok (.andReg 1 2) := rfl
theorem test_decode_xor : decode 0b1000_0001_0010_0011 = .ok (.xorReg 1 2) := rfl
theorem test_decode_add_reg : decode 0b1000_0001_0010_0100 = .ok (.addReg 1 2) := rfl
theorem test_decode_sub : decode 0b1000_0001_0010_0101 = .ok (.subReg 1 2) := rfl
theorem test_decode_shr : decode 0b1000_0001_0010_0110 = .ok (.shr 1 2) := rfl
theorem test_decode_subn : decode 0b1000_0001_0010_0111 = .ok (.subn 1 2) := rfl
theorem test_decode_shl : decode 0b1000_0001_0010_1110 = .ok (.shl 1 2) := rfl
theorem test_decode_sne_reg : decode 0b1001_0001_0010_1111 = .ok (.sneReg 1 2 0xF) := rfl
theorem test_decode_ld_i : decode 0b1010_0010_1111_0000 = .ok (.ldI 0x2F0) := rfl
theorem test_decode_jmp_v0 : decode 0b1011_0011_0000_0000 = .ok (.jmpV0 0x300) := rfl
theorem test_decode_rnd : decode 0b1100_0001_0000_1111 = .ok (.rnd 1 0x0F) := rfl
theorem test_decode_drw : decode 0b1101_0001_0010_0101 = .ok (.drw 1 2 5) := rfl
theorem test_decode_skp : decode 0b1110_0101_1001_1110 = .ok (.skp 5) := rfl
theorem test_decode_sknp : decode 0b1110_0101_1010_0001 = .ok (.sknp 5) := rfl
theorem test_decode_ld_vx_dt : decode 0b1111_0001_0000_0111 = .ok (.ldVxDt 1) := rfl
theorem test_decode_ld_vx_k : decode 0b1111_0010_0000_1010 = .ok (.ldVxK 2) := rfl
theorem test_decode_ld_dt_vx : decode 0b1111_0001_0001_0101 = .ok (.ldDtVx 1) := rfl
theorem test_decode_ld_st_vx : decode 0b1111_0001_0001_1000 = .ok (.ldStVx 1) := rfl
theorem test_decode_add_i : decode 0b1111_0001_0001_1110 = .ok (.addI 1) := rfl
theorem test_decode_ld_f : decode 0b1111_0001_0010_1001 = .ok (.ldF 1) := rfl
theorem test_decode_ld_b : decode 0b1111_0001_0011_0011 = .ok (.ldB 1) := rfl
theorem test_decode_store_regs : decode 0b1111_0001_0101_0101 = .ok (.storeRegs 1) := rfl
theorem test_decode_load_regs : decode 0b1111_0001_0110_0101 = .ok (.loadRegs 1) := rfl

/-- Bytes stand high byte first, and the rest of the string is left (R79; P2's first two instructions). -/
theorem test_decode_bytes : decodeBytes [0x6A, 0xEA, 0xA3, 0x00] = .ok (.ldImm 0xA 0xEA, [0xA3, 0x00]) := rfl
/-- Half a word is no instruction (R70). -/
theorem test_decode_one_byte : decodeBytes [0x6A] = .error .tooShort := rfl
/-- The table's numbering: bit 0 is the word's least significant bit; an illegal word gives none. -/
theorem test_decode_table_word :
    decodeTableWord 16 0xD125 = some (.drw 1 2 5) ∧ decodeTableWord 16 0xE0A0 = none := ⟨rfl, rfl⟩
/-- P2's image: the assembler emits a flat byte string (R79). -/
theorem test_program_image : programImage [.ldImm 0xA 0xEA, .ldI 0x300, .call 0x20A, .loadRegs 2, .jmp 0x208,
    .ldB 0xA, .ret 0] = [0x6A, 0xEA, 0xA3, 0x00, 0x22, 0x0A, 0xF2, 0x65, 0x12, 0x08, 0xFA, 0x33, 0x00, 0xEE] := by
  decide
/-- `JP` is JMP, and an immediate that does not fit is no instruction (R78). -/
theorem test_assemble : assemble "JP" [.imm 0x204] = some (.jmp 0x204) ∧ assemble "LD" [.reg 1, .imm 256] = none := by
  decide

/-! ## One step of each instruction (95_test_vectors.md sections 1 and 2) -/

/-- The reset state with these registers. -/
def regs (l : List (Nibble × Byte)) : State := l.foldl (fun s p => s.setV p.1 p.2) State.reset

/-- The state with these bytes from address a. -/
def withBytes (s : State) (a : Nat) : List Byte → State
  | [] => s
  | b :: rest => withBytes (s.writeByte a b) (a + 1) rest

/-- The state with keys held. -/
def withKeys (s : State) (k : BitVec 16) : State := { s with env := { s.env with keys := k } }

/-- What one step of word w shows of the next state. -/
def ran {α : Type} (w : Nat) (s : State) (view : State → α) : Option α :=
  match step (s.withFetchWord 16 w) with
  | .next t => some (view t)
  | .fault _ => none
  | .refused _ => none

/-- PC and run after a step: where control goes, or the fault record. -/
def pcRun (s : State) : Word × RunState := (s.pc, s.run)

/-- A fault record at 0x200. -/
def halt (c : Cause) (w : Word) (info : Nat) : Word × RunState := (0x200, .halted (.fault c 0x200 w info))

theorem test_sys_nop : ran 0x0123 State.reset pcRun = some (0x202, .running) := by decide
theorem test_sys_fault : ran 0x0123 { State.reset with sysMode := .fault } pcRun =
    some (halt .sysUnsupported 0x0123 0x0123) := by decide
theorem test_jmp : ran 0x1ABC State.reset pcRun = some (0xABC, .running) := by decide
theorem test_jmp_odd : ran 0x1301 State.reset pcRun = some (0x301, .running) := by decide
theorem test_call : ran 0x2400 { State.reset with pc := 0x2FE, sp := 3 } (fun t => (t.stack[3], t.sp, t.pc)) =
    some (0x2FE, 4, 0x400) := by decide
theorem test_call_full : ran 0x2400 { State.reset with sp := 16 } (fun t => (t.sp, pcRun t)) =
    some (16, halt .stackOverflow 0x2400 16) := by decide
theorem test_ret : ran 0x00EE { State.reset with sp := 4, stack := State.reset.stack.set 3 0x2FE }
    (fun t => (t.stack[3], t.sp, t.pc)) = some (0x2FE, 3, 0x300) := by decide
theorem test_ret_empty : ran 0x00EE State.reset pcRun = some (halt .stackUnderflow 0x00EE 0) := by decide
theorem test_se_imm_taken : ran 0x3342 (regs [(3, 0x42)]) pcRun = some (0x204, .running) := by decide
theorem test_se_imm_not : ran 0x3342 (regs [(3, 0x41)]) pcRun = some (0x202, .running) := by decide
theorem test_sne_imm_taken : ran 0x4342 (regs [(3, 0x41)]) pcRun = some (0x204, .running) := by decide
theorem test_sne_imm_not : ran 0x4342 (regs [(3, 0x42)]) pcRun = some (0x202, .running) := by decide
theorem test_se_reg_same : ran 0x5110 (regs [(1, 9)]) pcRun = some (0x204, .running) := by decide
theorem test_se_reg_not : ran 0x512F (regs [(1, 9)]) pcRun = some (0x202, .running) := by decide
theorem test_sne_reg_same : ran 0x9110 (regs [(1, 9)]) pcRun = some (0x202, .running) := by decide
theorem test_sne_reg_taken : ran 0x9120 (regs [(1, 9)]) pcRun = some (0x204, .running) := by decide
theorem test_jmp_v0 : ran 0xB300 (regs [(0, 0x10)]) pcRun = some (0x310, .running) := by decide
theorem test_jmp_v0_max : ran 0xBFFF (regs [(0, 0xFF)]) pcRun = some (0x10FE, .running) := by decide
theorem test_ld_imm_vf : ran 0x6FAB State.reset (·.getV 0xF) = some 0xAB := by decide
theorem test_add_imm_wraps : ran 0x7101 (regs [(1, 0xFF), (0xF, 0x77)]) (fun t => (t.getV 1, t.getV 0xF)) =
    some (0x00, 0x77) := by decide
theorem test_ld_reg : ran 0x8120 (regs [(2, 0x99)]) (fun t => (t.getV 1, t.getV 2)) = some (0x99, 0x99) := by decide
theorem test_or : ran 0x8121 (regs [(1, 0x0F), (2, 0xF0), (0xF, 1)]) (fun t => (t.getV 1, t.getV 0xF)) =
    some (0xFF, 0) := by decide
theorem test_or_vf : ran 0x8F21 (regs [(0xF, 0x0F), (2, 0xF0)]) (·.getV 0xF) = some 0 := by decide
theorem test_and : ran 0x8122 (regs [(1, 0x3C), (2, 0x0F)]) (fun t => (t.getV 1, t.getV 0xF)) =
    some (0x0C, 0) := by decide
theorem test_xor : ran 0x8123 (regs [(1, 0xFF), (2, 0x0F)]) (fun t => (t.getV 1, t.getV 0xF)) =
    some (0xF0, 0) := by decide
theorem test_add_carry : ran 0x8124 (regs [(1, 250), (2, 10)]) (fun t => (t.getV 1, t.getV 0xF)) =
    some (4, 1) := by decide
theorem test_add_vf : ran 0x8F24 (regs [(0xF, 200), (2, 100)]) (·.getV 0xF) = some 1 := by decide
theorem test_sub_borrow : ran 0x8125 (regs [(1, 5), (2, 10)]) (fun t => (t.getV 1, t.getV 0xF)) =
    some (251, 0) := by decide
theorem test_sub_equal : ran 0x8125 (regs [(1, 7), (2, 7), (0xF, 1)]) (fun t => (t.getV 1, t.getV 0xF)) =
    some (0, 0) := by decide
theorem test_shr_quirk_off : ran 0x8126 (regs [(1, 0x05), (2, 0xFF)]) (fun t => (t.getV 1, t.getV 0xF)) =
    some (0x02, 1) := by decide
theorem test_shr_quirk_on_vf : ran 0x8F16 { regs [(1, 0x03)] with useOriginalShiftInstructions := true }
    (·.getV 0xF) = some 1 := by decide
theorem test_subn : ran 0x8127 (regs [(1, 5), (2, 10)]) (fun t => (t.getV 1, t.getV 0xF)) = some (5, 1) := by decide
theorem test_subn_borrow : ran 0x8127 (regs [(1, 10), (2, 5)]) (fun t => (t.getV 1, t.getV 0xF)) =
    some (251, 0) := by decide
theorem test_shl_quirk_off : ran 0x812E (regs [(1, 0x7F)]) (fun t => (t.getV 1, t.getV 0xF)) =
    some (0xFE, 0) := by decide
theorem test_shl_quirk_on : ran 0x812E { regs [(2, 0x81)] with useOriginalShiftInstructions := true }
    (fun t => (t.getV 1, t.getV 0xF)) = some (0x02, 1) := by decide
theorem test_ld_i : ran 0xAFFF State.reset (·.i) = some 0xFFF := by decide
theorem test_rnd : ran 0xC10F { State.reset with env := { State.reset.env with rnd := 0xA7 } } (·.getV 1) =
    some 0x07 := by decide
theorem test_add_i_past_memory : ran 0xF11E { regs [(1, 1)] with i := 0xFFF } (·.i) = some 0x1000 := by decide
theorem test_add_i_wraps : ran 0xF11E { regs [(1, 2)] with i := 0xFFFF } (·.i) = some 0x0001 := by decide
theorem test_ld_f : ran 0xF129 (regs [(1, 0x0F)]) (·.i) = some 75 := by decide
theorem test_ld_f_unmasked : ran 0xF129 (regs [(1, 0xFF)]) (·.i) = some 1275 := by decide
theorem test_ld_b : ran 0xF133 { regs [(1, 234)] with i := 0x300 }
    (fun t => (t.readByte 0x300, t.readByte 0x301, t.readByte 0x302, t.i)) = some (2, 3, 4, 0x300) := by decide
theorem test_ld_b_out_of_range : ran 0xF133 { regs [(1, 234)] with i := 0xFFE }
    (fun t => (t.readByte 0xFFE, pcRun t)) = some (0, halt .memRange 0xF133 0x1000) := by decide
theorem test_store_regs_to_the_end : ran 0xFF55 { regs [(0, 0x11), (0xF, 0x42)] with i := 0xFF0 }
    (fun t => (t.readByte 0xFF0, t.readByte 0xFFF, t.i)) = some (0x11, 0x42, 0x1000) := by decide
theorem test_store_regs_out_of_range : ran 0xFF55 { regs [(0, 0x11)] with i := 0xFF1 }
    (fun t => (t.readByte 0xFF1, t.i, pcRun t)) = some (0, 0xFF1, halt .memRange 0xFF55 0x1000) := by decide
theorem test_load_regs : ran 0xFF65 { withBytes State.reset 0x30F [0x42] with i := 0x300 }
    (fun t => (t.getV 0xF, t.i)) = some (0x42, 0x310) := by decide
theorem test_load_regs_stops_at_x : ran 0xF265 { withBytes (regs [(3, 9)]) 0x300 [1, 2, 3, 4] with i := 0x300 }
    (fun t => (t.getV 0, t.getV 2, t.getV 3, t.i)) = some (1, 3, 9, 0x303) := by decide
theorem test_cls : ran 0x00E0 { State.reset with fb := State.reset.fb.toggle 31 63 }
    (fun t => (t.fb.pixel 31 63, t.draw, t.redrawCtr)) = some (false, false, 1) := by decide
/-- Section 2.6: byte 0x40 beside the one set pixel; then 0x80 on it. -/
theorem test_drw_no_collision : ran 0xD121 { withBytes State.reset 0x300 [0x40] with
      i := 0x300, fb := State.reset.fb.toggle 0 0 }
    (fun t => (t.fb.pixel 0 0, t.fb.pixel 0 1, t.getV 0xF, t.draw, t.redraw)) =
      some (true, true, 0, true, true) := by decide
theorem test_drw_collision : ran 0xD121 { withBytes State.reset 0x300 [0x80] with
      i := 0x300, fb := State.reset.fb.toggle 0 0 }
    (fun t => (t.fb.pixel 0 0, t.fb.pixel 0 1, t.getV 0xF)) = some (false, false, 1) := by decide
theorem test_skp_held : ran 0xE59E (withKeys (regs [(5, 10)]) 0x0400) pcRun = some (0x204, .running) := by decide
theorem test_skp_bad_key : ran 0xE59E (regs [(5, 16)]) pcRun = some (halt .keyRange 0xE59E 16) := by decide
theorem test_sknp_held : ran 0xE5A1 (withKeys (regs [(5, 10)]) 0x0400) pcRun = some (0x202, .running) := by decide
theorem test_sknp_not_held : ran 0xE5A1 (regs [(5, 10)]) pcRun = some (0x204, .running) := by decide
theorem test_key_wait_none : ran 0xF20A (regs [(2, 9)]) (fun t => (t.getV 2, t.pc, t.redrawCtr)) =
    some (9, 0x200, 1) := by decide
theorem test_key_wait_one : ran 0xF20A (withKeys State.reset 0x0008) (fun t => (t.getV 2, t.pc)) =
    some (3, 0x202) := by decide
theorem test_set_dt : ran 0xF115 (regs [(1, 0x3C)]) (·.dt) = some 0x3C := by decide
theorem test_read_dt : ran 0xF107 { State.reset with dt := 0x3C } (·.getV 1) = some 0x3C := by decide
theorem test_set_st : ran 0xF118 (regs [(1, 5)]) (fun t => (t.st, t.soundActive)) = some (5, true) := by decide
theorem test_clear_st : ran 0xF118 { State.reset with st := 7 } (fun t => (t.st, t.soundActive)) =
    some (0, false) := by decide

/-! ## Sprites at the edge (section 2.6) -/

/-- One sprite row from column 63: column 70 is clipped, or wraps to 6. -/
theorem test_edge_right :
    ((drawSprite true 63 0 (fun _ => 0x01) (FrameBuffer.blank, false) 1).1.pixel 0 6 = false) ∧
    ((drawSprite false 63 0 (fun _ => 0x01) (FrameBuffer.blank, false) 1).1.pixel 0 6 = true) := by decide
/-- Two rows from row 31: row 32 is clipped, or wraps to 0. -/
theorem test_edge_bottom :
    ((drawSprite true 0 31 (fun _ => 0x80) (FrameBuffer.blank, false) 2).1.pixel 0 0 = false) ∧
    ((drawSprite false 0 31 (fun _ => 0x80) (FrameBuffer.blank, false) 2).1.pixel 0 0 = true) := by decide

/-! ## Cycle, redraw, halt and ticks (sections 2.7 and 2.8) -/

theorem test_forced_redraw : ran 0x6000 { State.reset with redrawCtr := 99 } (fun t => (t.redraw, t.redrawCtr)) =
    some (true, 0) := by decide
theorem test_decode_fault : ran 0xFFFF { State.reset with redrawCtr := 10 } (fun t => (t.redrawCtr, pcRun t)) =
    some (10, halt .decode 0xFFFF 0xFFFF) := by decide
theorem test_fetch_fault : ran 0x6000 { State.reset with pc := 0x1000 } (·.run) =
    some (.halted (.fault .fetchRange 0x1000 0 0x1000)) := by decide
theorem test_advance_at_the_end : ran 0x6000 { State.reset with pc := 0xFFE } pcRun = some (0x1000, .running) := by
  decide
theorem test_tick : { State.reset with dt := 5 }.tick.dt = 4 ∧ { State.reset with dt := 1, st := 1 }.tick.st = 0 ∧
    State.reset.tick.st = 0 := by decide
/-- The reset state's own word runs: memory reads 0x0000 there, SYS 0x000 (R75 row 1). -/
theorem test_reset_step : (∃ t, core.step core.reset = .next t ∧ t.pc = 0x202) := ⟨_, rfl, by decide⟩
/-- The ROM stands verbatim at 0x200, high byte first (R261; P8's first word). -/
theorem test_rom : wordOfBytes (Memory.read (copyBytes [] 0x200 [0x30, 0x00]) 0x200)
    (Memory.read (copyBytes [] 0x200 [0x30, 0x00]) 0x201) = 0x3000 := by decide
/-- One byte past the longest ROM is a construction failure (R261). -/
theorem test_rom_too_long : State.construct ⟨List.replicate 3585 0, false, false, defaultFont, 0, .nop⟩ = none := by
  rw [State.construct, if_pos]; rw [List.length_replicate]; decide

/-! ## Witnesses: states and operands that meet the hypotheses of each obligation, clause by clause -/

/-- The state with word w at PC, its cycle due. -/
def due (w : Nat) (s : State) : State := s.withFetchWord 16 w

theorem witness_DecodeEncodeRoundTrip : (Instr.sys 0xFFF).wellFormed = true ∧ (Instr.sys 0x0E1).wellFormed = true ∧
    (Instr.cls 0xF).wellFormed = true ∧ (Instr.drw 0xF 0xF 0xF).wellFormed = true := by decide
theorem witness_EncodeDecodeRoundTrip : decode 0x0FFF = .ok (.sys 0xFFF) ∧ decode 0xFF65 = .ok (.loadRegs 0xF) :=
  ⟨rfl, rfl⟩
/-- Both clauses, at the ends of R76's lists. -/
theorem witness_IllegalWordsAreExactlyThoseListed :
    (isIllegal 0x8007 = false ∧ isIllegal 0x8008 = true ∧ isIllegal 0x800D = true ∧ isIllegal 0x800E = false ∧
      isIllegal 0x800F = true) ∧
    (isIllegal 0xE09D = true ∧ isIllegal 0xE09E = false ∧ isIllegal 0xEFA1 = false ∧ isIllegal 0xE000 = true) ∧
    (isIllegal 0xF000 = true ∧ isIllegal 0xF007 = false ∧ isIllegal 0xF065 = false ∧ isIllegal 0xFFFF = true) := by
  decide
/-- A decoded word that also selects row 1, and an illegal word. -/
theorem witness_DecoderFollowsTheOpcodeMap :
    (decode 0x00E0 = .ok (.cls 0) ∧ (opcodeRow (.sys 0)).selectedBy 0x00E0 = true) ∧
      decode 0xE0A0 = .error (.illegal 0xE0A0) := ⟨⟨rfl, rfl⟩, rfl⟩
theorem witness_InstructionBytesAreBigEndian : (Instr.jmpV0 0xFFF).wellFormed = true := by decide
theorem witness_AssemblyNamesTheInstruction :
    (Instr.ret 7).wellFormed = true ∧ (Instr.sys 0x1ED).wellFormed = true := by decide

/-- At the first address and at the last that can be fetched, with a due cycle. -/
theorem witness_StepRunsTheDecodedInstruction :
    (cycleDue (due 0xF255 State.reset) ∧ fetches (due 0xF255 State.reset) (.storeRegs 2)) ∧
    (cycleDue (due 0x6001 { State.reset with pc := 0xFFE }) ∧
      fetches (due 0x6001 { State.reset with pc := 0xFFE }) (.ldImm 0 1)) :=
  ⟨⟨⟨rfl, rfl, rfl⟩, by decide, rfl⟩, ⟨rfl, rfl, rfl⟩, by decide, rfl⟩
theorem witness_InstructionFaultHaltsPrecisely :
    cycleDue (due 0x22AA { State.reset with sp := 16 }) ∧ fetches (due 0x22AA { State.reset with sp := 16 }) (.call 0x2AA) ∧
    faults (.call 0x2AA) { due 0x22AA { State.reset with sp := 16 } with draw := false } .stackOverflow 16 :=
  ⟨⟨rfl, rfl, rfl⟩, ⟨by decide, rfl⟩, rfl⟩
/-- The lowest PC that cannot be fetched, and the highest there is. -/
theorem witness_FetchAboveTheLastWordHalts :
    (cycleDue { State.reset with pc := 0xFFF } ∧ 0xFFE < ({ State.reset with pc := 0xFFF } : State).pc.toNat) ∧
    (cycleDue { State.reset with pc := 0xFFFF } ∧ 0xFFE < ({ State.reset with pc := 0xFFFF } : State).pc.toNat) :=
  ⟨⟨⟨rfl, rfl, rfl⟩, by decide⟩, ⟨rfl, rfl, rfl⟩, by decide⟩
/-- An illegal word at the last address, and a legal one. -/
theorem witness_DecodeFaultExactlyOnIllegalWords :
    (cycleDue (due 0x800F { State.reset with pc := 0xFFE }) ∧ ({ State.reset with pc := 0xFFE } : State).pc.toNat ≤ 0xFFE ∧
      isIllegal (due 0x800F { State.reset with pc := 0xFFE }).wordAtPc = true) ∧
    (cycleDue (due 0x800E State.reset) ∧ isIllegal (due 0x800E State.reset).wordAtPc = false) :=
  ⟨⟨⟨rfl, rfl, rfl⟩, by decide, by decide⟩, ⟨rfl, rfl, rfl⟩, by decide⟩

/-- A slot of the environment. -/
def slot (a : Agent) (quit : Bool) : EnvSlot := { agent := a, keys := 0, quit := quit, rnd := 0, choice := 0 }

/-- Quit, even where nothing could be fetched. -/
theorem witness_QuitHaltsBeforeTheFetch :
    ∃ s : State, s.env.agent = .cycle ∧ s.run = .running ∧ s.env.quit = true ∧ 0xFFE < s.pc.toNat :=
  ⟨{ State.reset with pc := 0x1000, env := slot .cycle true }, rfl, rfl, rfl, by decide⟩
theorem witness_HaltedEngineHasNoCycle : ∃ (s : State) (r : HaltReason), s.env.agent = .cycle ∧ s.run = .halted r :=
  ⟨{ State.reset with run := .halted .quit }, .quit, rfl, rfl⟩
/-- Both timers at the floor, and at the top. -/
theorem witness_TickDecrementsTheTimersOnly : ∃ s t : State, s.env.agent = .timer ∧ s.dt = 0 ∧ s.st = 1 ∧
    t.env.agent = .timer ∧ t.dt = 0xFF ∧ t.run = .halted .quit :=
  ⟨{ State.reset with env := slot .timer false, st := 1 },
    { State.reset with env := slot .timer false, dt := 0xFF, run := .halted .quit }, rfl, rfl, rfl, rfl, rfl, rfl⟩
/-- First clause: a draw, an idle cycle at 99 and one at 98. -/
theorem witness_RedrawLogicFollowsTheRule :
    (∃ t, cycleDue (due 0xD120 State.reset) ∧ fetches (due 0xD120 State.reset) (.drw 1 2 0) ∧
      exec (.drw 1 2 0) { due 0xD120 State.reset with draw := false } = .next t ∧ t.run = .running ∧ t.draw = true) ∧
    (∃ t, cycleDue (due 0x00E0 { State.reset with redrawCtr := 99 }) ∧
      fetches (due 0x00E0 { State.reset with redrawCtr := 99 }) (.cls 0) ∧
      exec (.cls 0) { due 0x00E0 { State.reset with redrawCtr := 99 } with draw := false } = .next t ∧
      t.run = .running ∧ t.draw = false) ∧
    (∃ t, exec (.cls 0) { due 0x00E0 { State.reset with redrawCtr := 98 } with draw := false } = .next t ∧
      t.run = .running ∧ t.draw = false ∧ t.redrawCtr.toNat < 99) :=
  ⟨⟨_, ⟨rfl, rfl, rfl⟩, ⟨by decide, rfl⟩, rfl, rfl, rfl⟩, ⟨_, ⟨rfl, rfl, rfl⟩, ⟨by decide, rfl⟩, rfl, rfl, rfl⟩,
    ⟨_, rfl, rfl, rfl, by decide⟩⟩
/-- Second clause. -/
theorem witness_RedrawLogicFollowsTheRule_halt :
    ∃ t, (due 0xFFFF State.reset).env.agent = .cycle ∧ step (due 0xFFFF State.reset) = .next t ∧ t.run ≠ .running :=
  ⟨_, rfl, rfl, by decide⟩

/-- The self-jump 0x1200 at 0x200 after k idle cycles. -/
def idle (k : Nat) : State :=
  { due 0x1200 State.reset with redrawCtr := BitVec.ofNat 7 (k % 100), redraw := decide (k = 100) }

/-- Third clause: a hundred cycles of the self-jump; the boundary cycle is k = 99. -/
theorem witness_RedrawLogicFollowsTheRule_hundred : (idle 0).redrawCtr = 0 ∧
    ∀ k, k < 100 → cycleDue (idle k) ∧ fetches (idle k) (.jmp 0x200) ∧ (∀ x y n, Instr.jmp 0x200 ≠ .drw x y n) ∧
      ∃ u, step (idle k) = .next u ∧ u.run = .running ∧ onlyTimersAndEnv u (idle (k + 1)) := by
  have hf : fetches (due 0x1200 State.reset) (.jmp 0x200) := ⟨by decide, rfl⟩
  refine ⟨rfl, fun k hk => ⟨⟨rfl, rfl, rfl⟩, hf, nofun, ?_⟩⟩
  interval_cases k <;> exact ⟨_, rfl, rfl, rfl⟩

/-! ### Rules over every instruction -/

/-- A completed instruction, a waiting one and a faulting one. -/
theorem witness_PcMovesOnlyByThePcActions :
    (∃ t, exec (.jmpV0 0xFFF) State.reset = .next t ∧ State.reset.run = .running ∧ t.run = .running) ∧
    (∃ t, exec (.ldVxK 1) State.reset = .next t ∧ t.run = .running) ∧
    (∃ t, exec (.ret 0) State.reset = .next t ∧ t.run ≠ .running) :=
  ⟨⟨_, rfl, rfl, rfl⟩, ⟨_, rfl, rfl⟩, _, rfl, by decide⟩
theorem witness_OnlyCallAndRetTouchTheStack :
    ∃ t, exec (.jmp 0x300) State.reset = .next t ∧ touchesStack (.jmp 0x300) = false := ⟨_, rfl, rfl⟩
theorem witness_OnlyListedInstructionsWriteI :
    ∃ t, exec (.ldB 1) State.reset = .next t ∧ writesI (.ldB 1) = false := ⟨_, rfl, rfl⟩
theorem witness_OnlyClsAndDrwWriteTheFramebuffer :
    ∃ t, exec (.loadRegs 0xF) State.reset = .next t ∧ writesFb (.loadRegs 0xF) = false := ⟨_, rfl, rfl⟩
theorem witness_OnlyFx15AndFx18WriteTheTimers :
    ∃ t, exec (.ldVxDt 1) State.reset = .next t ∧ (∀ x, Instr.ldVxDt 1 ≠ .ldDtVx x) ∧ ∀ x, Instr.ldVxDt 1 ≠ .ldStVx x :=
  ⟨_, rfl, nofun, nofun⟩
theorem witness_OnlyDrwSetsTheDrawFlag :
    ∃ t, exec (.cls 0) State.reset = .next t ∧ ∀ x y n, Instr.cls 0 ≠ .drw x y n :=
  ⟨_, rfl, nofun⟩
/-- A storing and a non-storing instruction. -/
theorem witness_MemoryChangesOnlyWhereStored :
    (∃ t, exec (.storeRegs 3) { State.reset with i := 0x300 } = .next t ∧
      storedRange (.storeRegs 3) { State.reset with i := 0x300 } = (0x300, 4)) ∧
    (∃ t, exec (.ldImm 1 1) State.reset = .next t ∧ storedRange (.ldImm 1 1) State.reset = (0, 0)) :=
  ⟨⟨_, rfl, rfl⟩, _, rfl, rfl⟩
theorem witness_RegistersChangeOnlyAsListed :
    ∃ t, exec (.loadRegs 3) State.reset = .next t ∧ ¬ mayWriteV (.loadRegs 3) 4 :=
  ⟨_, rfl, by show ¬ (4 : Nibble).toNat ≤ (3 : Nibble).toNat; decide⟩
theorem witness_ConfigurationIsReadOnly :
    (∃ t, step (due 0x8126 State.reset) = .next t) ∧
      ∃ t, step { State.reset with env := slot .timer false } = .next t := ⟨⟨_, rfl⟩, _, rfl⟩
theorem witness_NoInstructionReadsTheSoundTimer : ∀ x, Instr.ldVxDt 1 ≠ .ldStVx x := nofun
theorem witness_TicksCommuteWithOtherInstructions :
    (∀ x, Instr.addI 1 ≠ .ldVxDt x) ∧ (∀ x, Instr.addI 1 ≠ .ldDtVx x) ∧ ∀ x, Instr.addI 1 ≠ .ldStVx x :=
  ⟨nofun, nofun, nofun⟩
theorem witness_HaltIsFinal : ∃ s t : State, s.run = .halted .quit ∧ step s = .next t :=
  ⟨{ State.reset with run := .halted .quit, env := slot .timer false }, _, rfl, rfl⟩

/-! ### Invariants -/

theorem witness_StepKeepsMemoryCanonical : ∃ t,
    memoryInv (due 0xF155 { regs [(0, 0xAA)] with i := 0x300 }) ∧
      step (due 0xF155 { regs [(0, 0xAA)] with i := 0x300 }) = .next t ∧ t.mem.length = 3 :=
  ⟨_, by unfold memoryInv; decide, rfl, by decide⟩
/-- The furthest jump. -/
theorem witness_StepKeepsPcBound : ∃ t, pcBoundInv (due 0xBFFF (regs [(0, 0xFF)])) ∧
    step (due 0xBFFF (regs [(0, 0xFF)])) = .next t ∧ t.pc = 0x10FE :=
  ⟨_, ⟨by decide, by decide⟩, rfl, by decide⟩
theorem witness_StepKeepsRedrawCounterInRange : ∃ t, redrawInv (due 0x6000 { State.reset with redrawCtr := 99 }) ∧
    step (due 0x6000 { State.reset with redrawCtr := 99 }) = .next t ∧ t.redraw = true :=
  ⟨_, ⟨by decide, by decide, by decide⟩, rfl, by decide⟩
/-- A running state whose step faults, and a halted one with a true record. -/
theorem witness_StepKeepsFaultRecordTrue :
    (∃ t, haltRecordInv (due 0xE59E (regs [(5, 16)])) ∧ step (due 0xE59E (regs [(5, 16)])) = .next t ∧
      t.run = .halted (.fault .keyRange 0x200 0xE59E 16)) ∧
    (∃ s t : State, haltRecordInv s ∧ s.run = .halted (.fault .fetchRange 0xFFF 0 0xFFF) ∧ step s = .next t) :=
  ⟨⟨_, trivial, rfl, by decide⟩,
    ⟨{ State.reset with pc := 0xFFF, run := .halted (.fault .fetchRange 0xFFF 0 0xFFF), env := slot .timer false },
      _, ⟨rfl, rfl, by decide, rfl⟩, rfl, rfl⟩⟩
/-- The boundary between the font and the fill. -/
theorem witness_ResetStateIsAsListed : 80 ≤ 80 ∧ State.reset.readByte 79 = 0x80 ∧ State.reset.readByte 80 = 0 := by
  decide
/-- The longest ROM and one byte past it; the clauses' addresses at their ends. -/
theorem witness_ConstructionLoadsTheImage :
    (List.replicate 3584 (0 : Byte)).length ≤ 3584 ∧ 3584 < (List.replicate 3585 (0 : Byte)).length ∧
    (0x200 ≤ 0xFFF ∧ 0xFFF - 0x200 < (List.replicate 3584 (0 : Byte)).length) ∧
    (0x1FF < 4096 ∧ 80 ≤ 0x1FF ∧ 0x1FF < 0x200) ∧ 0x200 + (List.replicate 2 (0 : Byte)).length ≤ 0x202 := by
  simp only [List.length_replicate]; decide

/-! ### Instruction results -/

/-- The clauses for x = F and for x ≠ F. -/
theorem witness_LogicOperationsZeroVf : (1 : Nibble) ≠ 0xF ∧ ran 0x8F23 (regs [(0xF, 0x0F), (2, 0xF0)]) (·.getV 0xF) =
    some 0 := by decide
theorem witness_AddRegGivesSumAndCarry : (0xE : Nibble) ≠ 0xF ∧
    ran 0x8124 (regs [(1, 255)]) (fun t => (t.getV 1, t.getV 0xF)) = some (255, 0) := by decide
theorem witness_SubtractionsGiveDifferenceAndNotBorrow : (0xE : Nibble) ≠ 0xF ∧
    ran 0x8125 (regs [(2, 255)]) (fun t => (t.getV 1, t.getV 0xF)) = some (1, 0) := by decide
theorem witness_ShiftsFollowTheQuirk : ∃ a : Byte, a = (if State.reset.useOriginalShiftInstructions = true then
    State.reset.getV 2 else State.reset.getV 1) := ⟨0, by decide⟩
/-- The last free stack entry, and none. -/
theorem witness_CallPushesItsOwnAddress : ({ State.reset with sp := 15 } : State).sp.val < 16 ∧
    ({ State.reset with sp := 16 } : State).sp.val = 16 := by decide
theorem witness_RetReturnsPastTheCall : 0 < ({ State.reset with sp := 1 } : State).sp.val ∧
    State.reset.sp.val = 0 := by decide
theorem witness_CallThenRetReturns : ∃ t u : State, State.reset.sp.val < 16 ∧
    exec (.call 0x400) State.reset = .next t ∧ u.sp = t.sp ∧ ∀ k (h : k < 16), k < t.sp.val → u.stack[k] = t.stack[k] :=
  ⟨_, _, by decide, rfl, rfl, fun _ _ _ => rfl⟩
theorem witness_SysAdvancesOrFaults : State.reset.sysMode = .nop ∧
    ({ State.reset with sysMode := .fault } : State).sysMode = .fault := by decide
/-- I at the last address that fits, and one past it. -/
theorem witness_BcdStoresThreeDigits : ({ State.reset with i := 0xFFD } : State).i.toNat + 2 ≤ 0xFFF ∧
    0xFFF < ({ State.reset with i := 0xFFE } : State).i.toNat + 2 := by decide
theorem witness_BlockStoreWritesV0ToVx : ({ State.reset with i := 0xFF0 } : State).i.toNat + (0xF : Nibble).toNat ≤ 0xFFF ∧
    0xFFF < ({ State.reset with i := 0xFF1 } : State).i.toNat + (0xF : Nibble).toNat := by decide
theorem witness_BlockLoadReadsV0ToVx : ({ State.reset with i := 0xFFF } : State).i.toNat + (0 : Nibble).toNat ≤ 0xFFF ∧
    0xFFF < ({ State.reset with i := 0xFFF } : State).i.toNat + (1 : Nibble).toNat := by decide
theorem witness_BlockStoreThenLoadRoundTrip : ∃ t u : State,
    ({ State.reset with i := 0x400 } : State).i.toNat + (2 : Nibble).toNat ≤ 0xFFF ∧
    exec (.storeRegs 2) { State.reset with i := 0x400 } = .next t ∧ u.i = 0x400 ∧ sameMemory t u :=
  ⟨_, State.setI _ 0x400, by decide, rfl, rfl, fun _ => rfl⟩
/-- No rows, one row at the last byte. -/
theorem witness_DrwXorsTheSpriteOntoTheScreen :
    ((0 : Nibble) = 0 ∨ ({ State.reset with i := 0xFFFF } : State).i.toNat + ((0 : Nibble).toNat - 1) ≤ 0xFFF) ∧
    ({ State.reset with i := 0xFFF } : State).i.toNat + ((1 : Nibble).toNat - 1) ≤ 0xFFF := by decide
theorem witness_DrwOutOfRangeFaults : (2 : Nibble) ≠ 0 ∧
    0xFFF < ({ State.reset with i := 0xFFF } : State).i.toNat + ((2 : Nibble).toNat - 1) := by decide
/-- The last key, and one past it. -/
theorem witness_KeySkipsReadTheKeyInVx : ((regs [(5, 15)]).getV 5).toNat ≤ 15 ∧ 15 < ((regs [(5, 16)]).getV 5).toNat := by
  decide
/-- No key, and the highest key only. -/
theorem witness_KeyWaitStoresAHeldKey : (∀ k, k < 16 → State.reset.env.keys.getLsbD k = false) ∧
    (withKeys State.reset 0x8000).env.keys.getLsbD 15 = true := by decide

end Sys2Proof.Tests
end

/-! PROOF. The redraw logic of 40_cycle.md section 4: what a completed cycle does to the counter and the output
`redraw` (R108), and that a quit or a fault does nothing to them (R231, R239). -/

namespace Sys2Proof.Machine

/-! ## A due cycle with a decodable word at PC -/

theorem fetch_of_fetches {s : State} {i : Instr} (h : fetches s i) : s.fetch = some s.wordAtPc := by
  have hpc := h.1
  exact if_neg (by omega)

theorem decode_of_fetches {s : State} {i : Instr} (h : fetches s i) : decode s.wordAtPc = .ok i := by
  have hd : (decode s.wordAtPc).map (fun i => (i, ([] : List Byte))) = .ok (i, []) := h.2
  cases e : decode s.wordAtPc with
  | error _ => rw [e] at hd; cases hd
  | ok j => rw [e] at hd; cases hd; rfl

/-- The next state of a due cycle is what the fetched instruction's execute step gives the cycle's end. -/
theorem step_eq_next_iff {s u : State} {i : Instr} (hd : cycleDue s) (hf : fetches s i) :
    step s = .next u ↔ ∃ t, exec i s.beginCycle = .next t ∧ u = (s.endCycle t).serveEnv := by
  obtain ⟨hagent, hrun, hquit⟩ := hd
  simp only [step, hagent, cycleTurn, hrun, cycle, hquit, fetch_of_fetches hf, decode_of_fetches hf]
  cases exec i s.beginCycle with
  | next t => simp [eq_comm]
  | fault f => simp
  | refused r => simp

/-! ## The end of a cycle -/

theorem State.endCycle_of_running {t : State} (s : State) (h : t.run = .running) :
    s.endCycle t = t.redrawUpdate := by
  simp only [State.endCycle, h]

theorem State.endCycle_of_not_running {t : State} (s : State) (h : t.run ≠ .running) :
    s.endCycle t = { s with run := t.run } := by
  unfold State.endCycle
  split
  · next hr => exact absurd hr h
  · next r hr => rw [hr]

theorem State.endCycle_run (s t : State) : (s.endCycle t).run = t.run := by
  by_cases h : t.run = .running
  · rw [State.endCycle_of_running s h, State.redrawUpdate_run]
  · rw [State.endCycle_of_not_running s h]

/-! ## The redraw update, by the draw flag (R108) -/

theorem State.redrawUpdate_of_draw {s : State} (h : s.draw = true) :
    s.redrawUpdate.redrawCtr = 0 ∧ s.redrawUpdate.redraw = true := by
  simp [State.redrawUpdate, h]

/-- Without a draw the counter counts modulo 100, and it is the wrap that redraws. -/
theorem State.redrawUpdate_of_not_draw {s : State} (h : s.draw = false) (hc : s.redrawCtr.toNat ≤ 99) :
    s.redrawUpdate.redrawCtr.toNat = (s.redrawCtr.toNat + 1) % 100 ∧
      s.redrawUpdate.redraw = decide (s.redrawCtr.toNat = 99) := by
  by_cases h99 : s.redrawCtr.toNat = 99
  · simp [State.redrawUpdate, h, h99]
  · have hstep : s.redrawUpdate = { s with redrawCtr := s.redrawCtr + 1, redraw := false } := by
      simp [State.redrawUpdate, h, h99]
    have hadd : (s.redrawCtr + 1).toNat = (s.redrawCtr.toNat + 1) % 128 := rfl
    rw [hstep]
    exact ⟨by rw [hadd]; omega, (decide_eq_false h99).symm⟩

/-! ## What an instruction leaves of the redraw logic (R30, R31, R107) -/

/-- No instruction writes the redraw counter, and only DRW writes the draw flag. -/
theorem exec_redrawCtr_and_draw {i : Instr} {s t : State} (hx : exec i s = .next t) :
    t.redrawCtr = s.redrawCtr ∧ ((∀ x y n, i ≠ .drw x y n) → t.draw = s.draw) := by
  obtain ⟨c, info, rfl⟩ | h := exec_cases hx
  · exact ⟨rfl, fun _ => rfl⟩
  cases i <;> simp only at h
  case sys | jmp | jmpV0 | seImm | sneImm | seReg | sneReg | skp | sknp | ldImm | addImm | ldReg | rnd | ldVxDt
      | ret | call =>
    obtain ⟨_, rfl⟩ := h
    exact ⟨rfl, fun _ => rfl⟩
  case cls | ldI | addI | ldF | ldDtVx | ldStVx =>
    subst h
    exact ⟨rfl, fun _ => rfl⟩
  case ldVxK =>
    obtain ⟨_, rfl⟩ | rfl := h <;> exact ⟨rfl, fun _ => rfl⟩
  case orReg | andReg | xorReg | addReg | subReg | subn =>
    obtain ⟨_, _, rfl⟩ := h
    exact ⟨rfl, fun _ => rfl⟩
  case shr | shl =>
    obtain ⟨_, _, rfl⟩ := h
    unfold State.copyShiftOperand
    split <;> exact ⟨rfl, fun _ => rfl⟩
  case ldB =>
    obtain ⟨-, rfl⟩ := h
    exact ⟨rfl, fun _ => rfl⟩
  case storeRegs =>
    obtain ⟨-, rfl⟩ := h
    rw [State.storeBlock_eq]
    exact ⟨rfl, fun _ => rfl⟩
  case loadRegs =>
    obtain ⟨-, rfl⟩ := h
    rw [State.loadBlock_eq]
    exact ⟨rfl, fun _ => rfl⟩
  case drw =>
    subst h
    exact ⟨rfl, fun hne => absurd rfl (hne _ _ _)⟩

/-! ## The redraw logic over one step and over a run -/

/-- A cycle that ends in a halt updates neither the counter nor the output (R231, R239). -/
theorem step_to_halt_keeps_redraw {s t : State} (ha : s.env.agent = .cycle) (h : step s = .next t)
    (hr : t.run ≠ .running) : t.redrawCtr = s.redrawCtr ∧ t.redraw = s.redraw := by
  obtain ⟨htick, -⟩ | ⟨-, -, u, hu, rfl⟩ := step_cases h
  · rw [ha] at htick; cases htick
  obtain ⟨-, rfl⟩ | ⟨-, -, rfl⟩ | ⟨w, e, -, -, -, rfl⟩ | ⟨w, i, v, -, -, -, -, rfl⟩ := cycle_cases hu
  · exact ⟨rfl, rfl⟩
  · exact ⟨rfl, rfl⟩
  · exact ⟨rfl, rfl⟩
  · rw [State.serveEnv_run, State.endCycle_run] at hr
    rw [State.endCycle_of_not_running s hr]
    exact ⟨rfl, rfl⟩

/-- A completed cycle of an instruction other than DRW counts on, modulo 100, and redraws on the wrap. -/
theorem step_without_drw_counts {s u : State} {i : Instr} (hd : cycleDue s) (hf : fetches s i)
    (hi : ∀ x y n, i ≠ .drw x y n) (hc : s.redrawCtr.toNat ≤ 99) (h : step s = .next u) (hr : u.run = .running) :
    u.redrawCtr.toNat = (s.redrawCtr.toNat + 1) % 100 ∧ u.redraw = decide (s.redrawCtr.toNat = 99) := by
  obtain ⟨t, ht, rfl⟩ := (step_eq_next_iff hd hf).mp h
  obtain ⟨hctr, hdraw⟩ := exec_redrawCtr_and_draw ht
  rw [State.serveEnv_run, State.endCycle_run] at hr
  have hcount := State.redrawUpdate_of_not_draw (hdraw hi) (hctr ▸ hc)
  rw [hctr] at hcount
  rwa [State.endCycle_of_running s hr]

/-- An idle run in which every cycle completes, with any ticks between the cycles: after k cycles the counter
is k modulo 100, and only the hundredth cycle has redrawn. -/
theorem idle_run_counts {f : Nat → State} {i : Nat → Instr} (h0 : (f 0).redrawCtr = 0)
    (h : ∀ k, k < 100 → cycleDue (f k) ∧ fetches (f k) (i k) ∧ (∀ x y n, i k ≠ .drw x y n) ∧
      ∃ u, step (f k) = .next u ∧ u.run = .running ∧ onlyTimersAndEnv u (f (k + 1))) (k : Nat) (hk : k ≤ 100) :
    (f k).redrawCtr.toNat = k % 100 ∧ (1 ≤ k → (f k).redraw = decide (k = 100)) := by
  induction k with
  | zero => simp [h0]
  | succ k ih =>
    obtain ⟨hd, hf, hi, u, hstep, hrun, hframe⟩ := h k (by omega)
    have hctr : (f k).redrawCtr.toNat = k := by rw [(ih (by omega)).1, Nat.mod_eq_of_lt (by omega)]
    obtain ⟨huctr, huredraw⟩ := step_without_drw_counts hd hf hi (by omega) hstep hrun
    rw [hctr] at huctr huredraw
    rw [hframe]
    exact ⟨huctr, fun _ => huredraw.trans (decide_eq_decide.mpr (by omega))⟩

/-- Settles O15: one completed cycle by the draw flag, a halting cycle, and a hundred idle cycles by induction on
their number. -/
theorem redrawLogicFollowsTheRule : Obligations.RedrawLogicFollowsTheRule := by
  refine ⟨fun s i t hd hf hc hexec hrun => ?_, fun _ _ => step_to_halt_keeps_redraw,
    fun f i h0 h k hk1 hk => ?_⟩
  · have hstep := (step_eq_next_iff hd hf).mpr ⟨t, hexec, rfl⟩
    rw [State.endCycle_of_running s hrun] at hstep
    have hctr : t.redrawCtr = s.redrawCtr := (exec_redrawCtr_and_draw hexec).1
    refine ⟨_, hstep, State.redrawUpdate_of_draw, fun hdraw h99 => ?_, fun hdraw hlt => ?_⟩ <;>
      obtain ⟨hcount, hredraw⟩ := State.redrawUpdate_of_not_draw hdraw (hctr ▸ hc) <;>
      rw [hctr] at hcount hredraw
    · exact ⟨BitVec.eq_of_toNat_eq (by rw [State.serveEnv_redrawCtr, hcount, h99]; rfl),
        hredraw.trans (decide_eq_true h99)⟩
    · exact ⟨hcount.trans (Nat.mod_eq_of_lt (by omega)), hredraw.trans (decide_eq_false (by omega))⟩
  · obtain ⟨hctr, hredraw⟩ := idle_run_counts h0 h k hk
    exact ⟨hredraw hk1, hctr⟩

end Sys2Proof.Machine

/-! PROOF. The flag-writing ALU instructions of 42_alu.md: 8xy1 to 8xy7 and 8xyE (R144 to R154). Each one writes a
result and then a flag, so each proof says what that result and that flag are as numbers. -/

namespace Sys2Proof.Machine

/-! ## Rows and decoding of family 8 (R75) -/

/-- A word of family 8 that decodes to its instruction lies in the row the opcode map gives that instruction. -/
theorem inRow_of_decodeFamily8 {i : Instr} (hrow : Laws.EncodedInRow.Statement i) (hop : fieldOp (encode i) = 0x8)
    (hdec : decodeFamily8 (encode i) = .ok i) : inRow i (opcodeRow i).bits (opcodeRow i).mask := by
  have hfamily : decode (encode i) = decodeFamily8 (encode i) := by simp [decode, hop]
  exact ⟨eq_of_beq hrow, hfamily.trans hdec⟩

theorem inRow_orReg (x y : Nibble) : inRow (.orReg x y) 0x8001 0xF00F :=
  inRow_of_decodeFamily8 (Laws.EncodedInRow.orReg x y) (fieldOp_packXYN ..) (by simp [encode, decodeFamily8])

theorem inRow_andReg (x y : Nibble) : inRow (.andReg x y) 0x8002 0xF00F :=
  inRow_of_decodeFamily8 (Laws.EncodedInRow.andReg x y) (fieldOp_packXYN ..) (by simp [encode, decodeFamily8])

theorem inRow_xorReg (x y : Nibble) : inRow (.xorReg x y) 0x8003 0xF00F :=
  inRow_of_decodeFamily8 (Laws.EncodedInRow.xorReg x y) (fieldOp_packXYN ..) (by simp [encode, decodeFamily8])

theorem inRow_addReg (x y : Nibble) : inRow (.addReg x y) 0x8004 0xF00F :=
  inRow_of_decodeFamily8 (Laws.EncodedInRow.addReg x y) (fieldOp_packXYN ..) (by simp [encode, decodeFamily8])

theorem inRow_subReg (x y : Nibble) : inRow (.subReg x y) 0x8005 0xF00F :=
  inRow_of_decodeFamily8 (Laws.EncodedInRow.subReg x y) (fieldOp_packXYN ..) (by simp [encode, decodeFamily8])

theorem inRow_shr (x y : Nibble) : inRow (.shr x y) 0x8006 0xF00F :=
  inRow_of_decodeFamily8 (Laws.EncodedInRow.shr x y) (fieldOp_packXYN ..) (by simp [encode, decodeFamily8])

theorem inRow_subn (x y : Nibble) : inRow (.subn x y) 0x8007 0xF00F :=
  inRow_of_decodeFamily8 (Laws.EncodedInRow.subn x y) (fieldOp_packXYN ..) (by simp [encode, decodeFamily8])

theorem inRow_shl (x y : Nibble) : inRow (.shl x y) 0x800E 0xF00F :=
  inRow_of_decodeFamily8 (Laws.EncodedInRow.shl x y) (fieldOp_packXYN ..) (by simp [encode, decodeFamily8])

/-! ## The flags as numbers -/

theorem flagByte_decide (p : Prop) [Decidable p] : flagByte (decide p) = if p then 1 else 0 := by
  simp [flagByte]

theorem flagByte_toNat (f : Bool) : (flagByte f).toNat = f.toNat := by
  cases f <;> rfl

theorem flagByte_shiftedOutRight_toNat (a : Byte) : (flagByte (shiftedOutRight a)).toNat = a.toNat % 2 := by
  rw [flagByte_toNat, shiftedOutRight, BitVec.getLsbD, Nat.toNat_testBit, pow_zero, Nat.div_one]

theorem flagByte_shiftedOutLeft_toNat (a : Byte) : (flagByte (shiftedOutLeft a)).toNat = a.toNat / 128 := by
  have ha := a.isLt
  rw [flagByte_toNat, shiftedOutLeft, BitVec.getLsbD, Nat.toNat_testBit]
  omega

/-! ## The results as numbers -/

theorem byte_sub_toNat (a b : Byte) : (a - b).toNat = (a.toNat + 256 - b.toNat) % 256 := by
  have hb := b.isLt
  rw [BitVec.toNat_sub]
  omega

theorem byte_shiftRight_one_toNat (a : Byte) : (a >>> 1).toNat = a.toNat / 2 := by
  rw [BitVec.toNat_ushiftRight, Nat.shiftRight_one]

theorem byte_shiftLeft_one_toNat (a : Byte) : (a <<< 1).toNat = a.toNat * 2 % 256 := by
  rw [BitVec.toNat_shiftLeft, Nat.shiftLeft_eq, pow_one]

/-- What 8xy5 and 8xy7 share: a difference modulo 256 and the strict comparison of its operands (R148, R149). -/
theorem writeDifference_spec (x : Nibble) (a b : Byte) (s : State) :
    ∃ t, writeResultAndFlag x (a - b) (notBorrow a b) s = .next t ∧
      (x ≠ 0xF → (t.getV x).toNat = (a.toNat + 256 - b.toNat) % 256) ∧
      t.getV 0xF = (if a.toNat > b.toNat then 1 else 0) ∧ t.pc = s.pc + 2 ∧ onlyVAndPc [x, 0xF] s t := by
  obtain ⟨t, ht, hres, hflag, hframe⟩ := writeResultAndFlag_spec x (a - b) (notBorrow a b) s
  exact ⟨t, ht, fun hx => by rw [hres hx, byte_sub_toNat], hflag.trans (flagByte_decide _), hframe⟩

/-! ## The shift operand (R151)

Its copy into Vx is overwritten by the result, so only the value it selects is left of it. -/

theorem State.setV_setV_same (s : State) (x : Nibble) (a b : Byte) : (s.setV x a).setV x b = s.setV x b := by
  simp [State.setV]

theorem State.setV_copyShiftOperand (s : State) (x y : Nibble) (b : Byte) :
    (s.copyShiftOperand x y).setV x b = s.setV x b := by
  unfold State.copyShiftOperand
  split
  · exact s.setV_setV_same x _ b
  · rfl

theorem State.getV_copyShiftOperand (s : State) (x y : Nibble) :
    (s.copyShiftOperand x y).getV x = if s.useOriginalShiftInstructions = true then s.getV y else s.getV x := by
  unfold State.copyShiftOperand
  split
  · exact s.getV_setV_same x _
  · rfl

theorem writeResultAndFlag_copyShiftOperand (x y : Nibble) (r : Byte) (f : Bool) (s : State) :
    writeResultAndFlag x r f (s.copyShiftOperand x y) = writeResultAndFlag x r f s := by
  rw [writeResultAndFlag, State.setV_copyShiftOperand, writeResultAndFlag]

section
variable {s : State} {x y : Nibble} {a : Byte}
  (ha : a = if s.useOriginalShiftInstructions = true then s.getV y else s.getV x)
include ha

theorem execShr_eq : execShr x y s = writeResultAndFlag x (a >>> 1) (shiftedOutRight a) s := by
  rw [execShr, writeResultAndFlag_copyShiftOperand, State.getV_copyShiftOperand, ← ha]

theorem execShl_eq : execShl x y s = writeResultAndFlag x (a <<< 1) (shiftedOutLeft a) s := by
  rw [execShl, writeResultAndFlag_copyShiftOperand, State.getV_copyShiftOperand, ← ha]

end

/-! ## The obligations -/

/-- Settles O37: the three write their result and a constant 0 flag. -/
theorem logicOperationsZeroVf : Obligations.LogicOperationsZeroVf := fun x y s =>
  ⟨inRow_orReg x y, inRow_andReg x y, inRow_xorReg x y, writeResultAndFlag_spec x (s.getV x ||| s.getV y) false s,
    writeResultAndFlag_spec x (s.getV x &&& s.getV y) false s,
    writeResultAndFlag_spec x (s.getV x ^^^ s.getV y) false s⟩

/-- Settles O38: byte addition is the sum modulo 256, and the flag written after it is the carry. -/
theorem addRegGivesSumAndCarry : Obligations.AddRegGivesSumAndCarry := by
  intro x y s
  obtain ⟨t, ht, hres, hflag, hframe⟩ :=
    writeResultAndFlag_spec x (s.getV x + s.getV y) (carryOut (s.getV x) (s.getV y)) s
  exact ⟨inRow_addReg x y, t, ht, fun hx => by rw [hres hx, BitVec.toNat_add],
    hflag.trans (flagByte_decide _), hframe⟩

/-- Settles O39: both write a difference and its NOT borrow, with the operands exchanged. -/
theorem subtractionsGiveDifferenceAndNotBorrow : Obligations.SubtractionsGiveDifferenceAndNotBorrow := fun x y s =>
  ⟨inRow_subReg x y, inRow_subn x y, writeDifference_spec x (s.getV x) (s.getV y) s,
    writeDifference_spec x (s.getV y) (s.getV x) s⟩

/-- Settles O40: with the operand's copy gone (`execShr_eq`, `execShl_eq`), a shift writes half or twice the operand
and its lowest or highest bit. -/
theorem shiftsFollowTheQuirk : Obligations.ShiftsFollowTheQuirk := by
  refine fun x y s => ⟨inRow_shr x y, inRow_shl x y, fun a ha => ⟨?_, ?_⟩⟩
  · obtain ⟨t, ht, hres, hflag, hframe⟩ := writeResultAndFlag_spec x (a >>> 1) (shiftedOutRight a) s
    exact ⟨t, (execShr_eq ha).trans ht, fun hx => by rw [hres hx, byte_shiftRight_one_toNat],
      by rw [hflag, flagByte_shiftedOutRight_toNat], hframe⟩
  · obtain ⟨t, ht, hres, hflag, hframe⟩ := writeResultAndFlag_spec x (a <<< 1) (shiftedOutLeft a) s
    exact ⟨t, (execShl_eq ha).trans ht, fun hx => by rw [hres hx, byte_shiftLeft_one_toNat],
      by rw [hflag, flagByte_shiftedOutLeft_toNat], hframe⟩

end Sys2Proof.Machine

/-! PROOF. What a completed DRW leaves of the machine (44_display.md R191 to R197): the screen and VF by
`drawSprite_spec`, and the frame of everything else. -/

namespace Sys2Proof.Machine

theorem flagByte_eq_zero_or_one (f : Bool) : flagByte f = 0 ∨ flagByte f = 1 := by
  cases f
  · exact .inl rfl
  · exact .inr rfl

theorem flagByte_eq_one_iff (f : Bool) : flagByte f = 1 ↔ f = true := by
  cases f <;> decide

/-- A sprite has at most 15 rows, so no two of its rows wrap to the same screen row; without a collision to begin
with, the collision is the sprite's own. -/
theorem State.spriteResult_spec (s : State) (x y n : Nibble) :
    (∀ r c, (s.spriteResult x y n).1.pixel r c = (s.fb.pixel r c ^^ decide (spriteCovers s x y n r c))) ∧
      ((s.spriteResult x y n).2 = true ↔ ∃ r c, spriteCovers s x y n r c ∧ s.fb.pixel r c = true) := by
  have hrows : n.toNat ≤ 32 := by have := n.isLt; omega
  obtain ⟨hpixel, hcollision⟩ := drawSprite_spec s.enableClipping ((s.getV x).toNat % 64) ((s.getV y).toNat % 32)
    (fun r => s.readByte (s.i.toNat + r)) (s.fb, false) n.toNat hrows
  exact ⟨hpixel, hcollision.trans (or_iff_right Bool.false_ne_true)⟩

/-- Settles O55: with its bytes in range, DRW completes with the sprite's result on the screen and its collision in
VF (`State.spriteResult_spec`); every other field is carried over. -/
theorem drwXorsTheSpriteOntoTheScreen : Obligations.DrwXorsTheSpriteOntoTheScreen := by
  intro x y n s hrange
  obtain ⟨hpixel, hcollision⟩ := s.spriteResult_spec x y n
  refine ⟨_, execDrw_of_fits x y n hrange, hpixel, ?_, ?_, rfl, rfl, fun r hr => ?_, rfl, fun _ => rfl,
    ⟨rfl, rfl⟩, ⟨rfl, rfl⟩, ⟨rfl, rfl, rfl⟩, rfl, rfl, rfl, rfl, rfl⟩
  · rw [State.applyPcAction_getV, State.getV_setV_same]
    exact flagByte_eq_zero_or_one _
  · rw [State.applyPcAction_getV, State.getV_setV_same, flagByte_eq_one_iff]
    exact hcollision
  · have hvf : r ≠ flagReg := List.ne_of_not_mem_cons hr
    rw [State.applyPcAction_getV, State.getV_setV_of_ne _ hvf, State.markDraw_getV, State.setFb_getV]

end Sys2Proof.Machine

/-! PROOF. The timer agent's step (45_keys_timers.md R217, R218): a tick, whatever the run state. -/

namespace Sys2Proof.Machine

/-- The floor of R217 is the truncation of subtraction on the naturals. -/
theorem decTimer_toNat (t : Byte) : (decTimer t).toNat = t.toNat - 1 := by
  unfold decTimer
  split
  · next h => subst h; rfl
  · next h => bv_omega

/-- The run state plays no part in the timer agent's turn (R218). -/
theorem step_of_timer {s : State} (h : s.env.agent = .timer) : step s = .next s.tick.serveEnv := by
  simp only [step, h, timerTurn]

theorem State.onlyTimersAndEnv_tick_serveEnv (s : State) : onlyTimersAndEnv s s.tick.serveEnv := rfl

/-- Settles O14: the timer agent's step is the tick, which decrements each timer by `decTimer_toNat`. -/
theorem tickDecrementsTheTimersOnly : Obligations.TickDecrementsTheTimersOnly := fun s h =>
  ⟨s.tick.serveEnv, step_of_timer h, decTimer_toNat s.dt, decTimer_toNat s.st, s.onlyTimersAndEnv_tick_serveEnv⟩

end Sys2Proof.Machine

/-! PROOF. The decoder, the encoder and the opcode map as inverses of each other (30_encoding.md R70 to R79). -/

namespace Sys2Proof.Machine

/-! ## Decode after encode -/

/-- The low byte of a well-formed SYS is that of no other row of family 0 (R75). -/
theorem decodeFamily0_packA {nnn : Addr12} (h : (Instr.sys nnn).wellFormed = true) :
    decodeFamily0 (packA 0x0 nnn) = .sys nnn := by
  simp only [Instr.wellFormed, Bool.and_eq_true, bne_iff_ne] at h
  obtain ⟨hcls, hret⟩ := h
  unfold decodeFamily0
  rw [fieldKk_packA]
  split
  · next e => exact absurd (BitVec.eq_of_toNat_eq e) hcls
  · next e => exact absurd (BitVec.eq_of_toNat_eq e) hret
  · rw [fieldNnn_packA]

theorem decode_encode {i : Instr} (h : i.wellFormed = true) : decode (encode i) = .ok i := by
  cases i <;> simp only [encode]
  case sys nnn =>
    have hfamily : decode (packA 0x0 nnn) = .ok (decodeFamily0 (packA 0x0 nnn)) := by simp [decode]
    rw [hfamily, decodeFamily0_packA h]
  case cls | ret => simp [decode, decodeFamily0]
  case jmp | call | ldI | jmpV0 => simp [decode]
  case seImm | sneImm | ldImm | addImm | rnd => simp [decode]
  case seReg | sneReg | drw => simp [decode]
  case ldReg | orReg | andReg | xorReg | addReg | subReg | shr | subn | shl => simp [decode, decodeFamily8]
  case skp | sknp => simp [decode, decodeFamilyE]
  case ldVxDt | ldVxK | ldDtVx | ldStVx | addI | ldF | ldB | storeRegs | loadRegs =>
    simp [decode, decodeFamilyF]

/-- Settles O1: each format's fields are read back by the lemmas of Laws/Decode; only SYS needs its
condition. -/
theorem decodeEncodeRoundTrip : Obligations.DecodeEncodeRoundTrip := fun _ => decode_encode

/-! ## Encode after decode, family by family -/

theorem encode_decodeFamily0 {w : Word} (hop : fieldOp w = 0x0) :
    encode (decodeFamily0 w) = w ∧ (decodeFamily0 w).wellFormed = true := by
  unfold decodeFamily0
  split
  · next hk => exact ⟨packXK_fields w hop (BitVec.eq_of_toNat_eq hk), rfl⟩
  · next hk => exact ⟨packXK_fields w hop (BitVec.eq_of_toNat_eq hk), rfl⟩
  · next hcls hret =>
    have hlow : (fieldNnn w).extractLsb' 0 8 = fieldKk w := by
      rw [← fieldKk_packA 0x0, packA_fields w hop]
    refine ⟨packA_fields w hop, ?_⟩
    simp only [Instr.wellFormed, hlow, Bool.and_eq_true, bne_iff_ne]
    exact ⟨fun e => hcls (congrArg BitVec.toNat e), fun e => hret (congrArg BitVec.toNat e)⟩

theorem encode_of_decodeFamily8 {w : Word} {i : Instr} (hop : fieldOp w = 0x8) (h : decodeFamily8 w = .ok i) :
    encode i = w ∧ i.wellFormed = true := by
  unfold decodeFamily8 at h
  split at h <;> cases h
  all_goals next hn => exact ⟨packXYN_fields w hop (BitVec.eq_of_toNat_eq hn), rfl⟩

theorem encode_of_decodeFamilyE {w : Word} {i : Instr} (hop : fieldOp w = 0xE) (h : decodeFamilyE w = .ok i) :
    encode i = w ∧ i.wellFormed = true := by
  unfold decodeFamilyE at h
  split at h <;> cases h
  all_goals next hk => exact ⟨packXK_fields w hop (BitVec.eq_of_toNat_eq hk), rfl⟩

theorem encode_of_decodeFamilyF {w : Word} {i : Instr} (hop : fieldOp w = 0xF) (h : decodeFamilyF w = .ok i) :
    encode i = w ∧ i.wellFormed = true := by
  unfold decodeFamilyF at h
  split at h <;> cases h
  all_goals next hk => exact ⟨packXK_fields w hop (BitVec.eq_of_toNat_eq hk), rfl⟩

theorem encode_of_decode {w : Word} {i : Instr} (h : decode w = .ok i) : encode i = w ∧ i.wellFormed = true := by
  have hf : (fieldOp w).toNat < 16 := (fieldOp w).isLt
  unfold decode at h
  split at h
  case h_1 hop => cases h; exact encode_decodeFamily0 (BitVec.eq_of_toNat_eq hop)
  case h_9 hop => exact encode_of_decodeFamily8 (BitVec.eq_of_toNat_eq hop) h
  case h_15 hop => exact encode_of_decodeFamilyE (BitVec.eq_of_toNat_eq hop) h
  case h_16 =>
    have hop : (fieldOp w).toNat = 15 := by simp only [imp_false] at *; omega
    exact encode_of_decodeFamilyF (BitVec.eq_of_toNat_eq hop) h
  case h_2 hop | h_3 hop | h_11 hop | h_12 hop => cases h; exact ⟨packA_fields w (BitVec.eq_of_toNat_eq hop), rfl⟩
  case h_4 hop | h_5 hop | h_7 hop | h_8 hop | h_13 hop =>
    cases h; exact ⟨packXK_fields w (BitVec.eq_of_toNat_eq hop) rfl, rfl⟩
  case h_6 hop | h_10 hop | h_14 hop =>
    cases h; exact ⟨packXYN_fields w (BitVec.eq_of_toNat_eq hop) rfl, rfl⟩

/-- Settles O2: the families' branches, each packed again from its fields. -/
theorem encodeDecodeRoundTrip : Obligations.EncodeDecodeRoundTrip := fun _ _ => encode_of_decode

/-! ## The illegal words (R76) -/

theorem decodeFamily8_eq_error_iff {w : Word} {e : DecodeError} :
    decodeFamily8 w = .error e ↔
      [0x8, 0x9, 0xA, 0xB, 0xC, 0xD, 0xF].contains (fieldN w).toNat = true ∧ e = .illegal w := by
  have hn : (fieldN w).toNat < 16 := (fieldN w).isLt
  unfold decodeFamily8
  generalize (fieldN w).toNat = n at hn
  interval_cases n <;> simp [eq_comm]

theorem decodeFamilyE_eq_error_iff {w : Word} {e : DecodeError} :
    decodeFamilyE w = .error e ↔ (!([0x9E, 0xA1].contains (fieldKk w).toNat)) = true ∧ e = .illegal w := by
  unfold decodeFamilyE
  split <;> simp_all [eq_comm]

theorem decodeFamilyF_eq_error_iff {w : Word} {e : DecodeError} :
    decodeFamilyF w = .error e ↔
      (!([0x07, 0x0A, 0x15, 0x18, 0x1E, 0x29, 0x33, 0x55, 0x65].contains (fieldKk w).toNat)) = true ∧
        e = .illegal w := by
  unfold decodeFamilyF
  split <;> simp_all [eq_comm]

/-- Decode fails exactly on the words of R76, and names the word. -/
theorem decode_eq_error_iff {w : Word} {e : DecodeError} :
    decode w = .error e ↔ isIllegal w = true ∧ e = .illegal w := by
  have hf : (fieldOp w).toNat < 16 := (fieldOp w).isLt
  unfold decode
  split
  case h_9 hop => simp only [isIllegal, hop]; exact decodeFamily8_eq_error_iff
  case h_15 hop => simp only [isIllegal, hop]; exact decodeFamilyE_eq_error_iff
  case h_16 =>
    have hop : (fieldOp w).toNat = 15 := by simp only [imp_false] at *; omega
    simp only [isIllegal, hop]
    exact decodeFamilyF_eq_error_iff
  all_goals next hop => simp [isIllegal, hop]

theorem decode_of_illegal {w : Word} (h : isIllegal w = true) : decode w = .error (.illegal w) :=
  decode_eq_error_iff.mpr ⟨h, rfl⟩

theorem exists_decode_of_legal {w : Word} (h : isIllegal w = false) : ∃ i, decode w = .ok i := by
  cases hd : decode w with
  | ok i => exact ⟨i, rfl⟩
  | error e => exact absurd (decode_eq_error_iff.mp hd).1 (by simp [h])

/-- Settles O3: by `decode_eq_error_iff`. -/
theorem illegalWordsAreExactlyThoseListed : Obligations.IllegalWordsAreExactlyThoseListed :=
  fun _ => ⟨decode_of_illegal, exists_decode_of_legal⟩

/-! ## The opcode map (R75) -/

theorem encodedInRow (i : Instr) : Laws.EncodedInRow.Statement i := by
  cases i
  case sys | jmp | call | ldI | jmpV0 => exact Laws.selected_packA _ _ rfl
  case seImm | sneImm | ldImm | addImm | rnd => exact Laws.selected_packXK _ _ _ rfl
  case seReg | sneReg | drw => exact Laws.selected_packXYN _ _ _ _ rfl
  case ldReg | orReg | andReg | xorReg | addReg | subReg | shr | subn | shl =>
    exact Laws.selected_packXYN_n _ _ _ _ rfl
  case cls | ret | skp | sknp | ldVxDt | ldVxK | ldDtVx | ldStVx | addI | ldF | ldB | storeRegs | loadRegs =>
    exact Laws.selected_packXK_kk _ _ _ rfl

theorem selectedBy_of_decode {w : Word} {i : Instr} (h : decode w = .ok i) : (opcodeRow i).selectedBy w = true := by
  have hrow := encodedInRow i
  rwa [Laws.EncodedInRow.Statement, (encode_of_decode h).1] at hrow

/-- A selected row fixes the word's fields under its mask, and every mask keeps the family. -/
theorem fields_of_selected {j : Instr} {w : Word} (h : (opcodeRow j).selectedBy w = true) :
    fieldOp w = fieldOp (opcodeRow j).bits ∧
      fieldN w &&& fieldN (opcodeRow j).mask = fieldN (opcodeRow j).bits ∧
      fieldKk w &&& fieldKk (opcodeRow j).mask = fieldKk (opcodeRow j).bits := by
  have hfamily : fieldOp (opcodeRow j).mask = BitVec.allOnes 4 := by
    cases j <;> simp only [opcodeRow] <;> rfl
  rw [← eq_of_beq h]
  refine ⟨?_, BitVec.extractLsb'_and.symm, BitVec.extractLsb'_and.symm⟩
  calc fieldOp w = fieldOp w &&& fieldOp (opcodeRow j).mask := by rw [hfamily, BitVec.and_allOnes]
    _ = fieldOp (w &&& (opcodeRow j).mask) := BitVec.extractLsb'_and.symm

/-- A row that a word selects is the row of the instruction it decodes to, or row 1 (R75). -/
theorem decode_of_selected {j : Instr} {w : Word} (h : (opcodeRow j).selectedBy w = true) :
    ∃ i, decode w = .ok i ∧ (opcodeRow j = opcodeRow i ∨ opcodeRow j = ⟨0x0000, 0xF000⟩) := by
  obtain ⟨hop, hn, hkk⟩ := fields_of_selected h
  unfold decode
  cases j <;> simp only [opcodeRow] at hop hn hkk ⊢ <;> rw [hop]
  case sys => exact ⟨_, rfl, .inr trivial⟩
  case jmp | call | seImm | sneImm | seReg | ldImm | addImm | sneReg | ldI | jmpV0 | rnd | drw =>
    exact ⟨_, rfl, .inl rfl⟩
  case ldReg | orReg | andReg | xorReg | addReg | subReg | shr | subn | shl =>
    rw [show fieldN 0xF00F = BitVec.allOnes 4 from rfl, BitVec.and_allOnes] at hn
    exact ⟨_, by rw [decodeFamily8, hn]; rfl, .inl rfl⟩
  case cls | ret =>
    rw [show fieldKk 0xF0FF = BitVec.allOnes 8 from rfl, BitVec.and_allOnes] at hkk
    exact ⟨_, by rw [decodeFamily0, hkk]; rfl, .inl rfl⟩
  case skp | sknp =>
    rw [show fieldKk 0xF0FF = BitVec.allOnes 8 from rfl, BitVec.and_allOnes] at hkk
    exact ⟨_, by rw [decodeFamilyE, hkk]; rfl, .inl rfl⟩
  case ldVxDt | ldVxK | ldDtVx | ldStVx | addI | ldF | ldB | storeRegs | loadRegs =>
    rw [show fieldKk 0xF0FF = BitVec.allOnes 8 from rfl, BitVec.and_allOnes] at hkk
    exact ⟨_, by rw [decodeFamilyF, hkk]; rfl, .inl rfl⟩

/-- Settles O4: the row of the decoded instruction by `encodedInRow`, and no other row by `decode_of_selected`. -/
theorem decoderFollowsTheOpcodeMap : Obligations.DecoderFollowsTheOpcodeMap := by
  refine fun w => ⟨fun i hi => ⟨selectedBy_of_decode hi, fun j hj => ?_⟩, fun e he j => ?_⟩
  · obtain ⟨i', hi', hrow⟩ := decode_of_selected hj
    obtain rfl : i = i' := Except.ok.inj (hi.symm.trans hi')
    exact hrow
  · by_contra hj
    obtain ⟨i, hi, -⟩ := decode_of_selected (Bool.eq_true_of_not_eq_false hj)
    rw [he] at hi
    cases hi

/-- The illegal words are those that select no row (R76). -/
theorem isIllegal_iff_no_row {w : Word} : isIllegal w = true ↔ ∀ j, (opcodeRow j).selectedBy w = false := by
  refine ⟨fun h => (decoderFollowsTheOpcodeMap w).2 _ (decode_of_illegal h), fun h => ?_⟩
  by_contra hl
  obtain ⟨i, hi⟩ := exists_decode_of_legal (Bool.eq_false_of_not_eq_true hl)
  exact absurd (selectedBy_of_decode hi) (by simp [h i])

/-! ## Words and bytes -/

/-- Settles O5: closed words, by evaluation. -/
theorem listedWordsDecode : Obligations.ListedWordsDecode := by
  unfold Obligations.ListedWordsDecode
  and_intros <;> rfl

theorem word_toNat_eq_bytes (w : Word) : w.toNat = (highByte w).toNat * 256 + (lowByte w).toNat := by
  rw [← wordOfBytes_toNat, wordOfBytes_bytes]

/-- Settles O6: the two bytes join to the word, which decodes by `decode_encode`. -/
theorem instructionBytesAreBigEndian : Obligations.InstructionBytesAreBigEndian := by
  refine fun i rest h => ⟨?_, _, _, rfl, word_toNat_eq_bytes (encode i)⟩
  show (decode (wordOfBytes (highByte (encode i)) (lowByte (encode i)))).map (fun i => (i, rest)) = _
  rw [wordOfBytes_bytes, decode_encode h]
  rfl

/-- Settles O60: the three packings as numbers. -/
theorem encodePlacesTheFields : Obligations.EncodePlacesTheFields := by
  intro x y n kk nnn
  and_intros <;> simp [encode, packA_toNat, packXK_toNat, packXYN_toNat] <;> omega

/-! ## Assembly (R78) -/

@[simp] theorem addressImm_toNat (a : Addr12) : addressImm a.toNat = some a := by
  rw [addressImm, if_pos a.isLt, BitVec.ofNat_toNat, BitVec.setWidth_eq]

@[simp] theorem byteImm_toNat (b : Byte) : byteImm b.toNat = some b := by
  rw [byteImm, if_pos b.isLt, BitVec.ofNat_toNat, BitVec.setWidth_eq]

@[simp] theorem nibbleImm_toNat (n : Nibble) : nibbleImm n.toNat = some n := by
  rw [nibbleImm, if_pos n.isLt, BitVec.ofNat_toNat, BitVec.setWidth_eq]

/-- Settles O7: each mnemonic's branch of `assemble` on the operands' shape. -/
theorem assemblyNamesTheInstruction : Obligations.AssemblyNamesTheInstruction := by
  intro i h
  cases i <;> simp only [mnemonicOf, operandsOf, canonicalSpelling]
  case sys => simp [assemble, Option.filter, h]
  case jmp | jmpV0 => simp [assemble, assembleJmp]
  case ldImm | ldReg | ldI | ldVxDt | ldVxK | ldDtVx | ldStVx | ldF | ldB | storeRegs | loadRegs =>
    simp [assemble, assembleLd]
  case seImm | sneImm | addImm | rnd => simp [assemble, assembleXK]
  case seReg | sneReg | addReg => simp [assemble, assembleXK, assembleXY]
  case orReg | andReg | xorReg | subReg | shr | subn | shl => simp [assemble, assembleXY]
  case cls | ret | call | drw | skp | sknp | addI => simp [assemble]

end Sys2Proof.Machine

/-! PROOF. The cycle agent's step (40_cycle.md R101, 60_exceptions.md R230 to R240): what each check of the cycle
answers, in its order. -/

namespace Sys2Proof.Machine

/-! ## What an instruction's fault is (R240) -/

/-- The cause and the info of the fault that the instruction ends in, if it does (R230, R240). -/
def faultOf (i : Instr) (s : State) : Option (Cause × Nat) :=
  match i with
  | .sys _ => if s.sysMode = .fault then some (.sysUnsupported, (encode i).toNat) else none
  | .call _ => if s.sp.val = 16 then some (.stackOverflow, 16) else none
  | .ret _ => if s.sp.val = 0 then some (.stackUnderflow, 0) else none
  | .skp x | .sknp x => if 15 < (s.getV x).toNat then some (.keyRange, (s.getV x).toNat) else none
  | .drw _ _ n => (outOfRange s.i n.toNat).map (Prod.mk .memRange)
  | .ldB _ => (outOfRange s.i 3).map (Prod.mk .memRange)
  | .storeRegs x | .loadRegs x => (outOfRange s.i (x.toNat + 1)).map (Prod.mk .memRange)
  | _ => none

theorem withRange_of_fault {w : Word} {n : Nat} {s : State} {body : Result} {c : Cause} {info : Nat}
    (h : (outOfRange s.i n).map (Prod.mk Cause.memRange) = some (c, info)) :
    withRange w n s body = .next (s.raise c w info) := by
  obtain ⟨a, ha, hc⟩ := Option.map_eq_some_iff.mp h
  cases hc
  simp only [withRange, ha, trap]

theorem withRange_of_no_fault {w : Word} {n : Nat} {s : State} {body : Result}
    (h : (outOfRange s.i n).map (Prod.mk Cause.memRange) = none) : withRange w n s body = body := by
  simp only [withRange, Option.map_eq_none_iff.mp h]

/-- An instruction with a fault ends in it, and nothing else changes (R231). -/
theorem exec_of_fault {i : Instr} {s : State} {c : Cause} {info : Nat} (h : faultOf i s = some (c, info)) :
    exec i s = .next (s.raise c (encode i) info) := by
  cases i <;> simp only [faultOf, Option.ite_none_right_eq_some, Option.some.injEq, Prod.mk.injEq, reduceCtorEq] at h
  case sys nnn =>
    obtain ⟨hm, rfl, rfl⟩ := h
    exact execSys_of_fault nnn hm
  case call nnn =>
    obtain ⟨hfull, rfl, rfl⟩ := h
    simp only [exec, execCall, State.push_full _ hfull, hfull, trap]
  case ret ign =>
    obtain ⟨hempty, rfl, rfl⟩ := h
    simp only [exec, execRet, State.pop_empty hempty, hempty, trap]
  case skp | sknp =>
    obtain ⟨hkey, rfl, rfl⟩ := h
    exact if_pos hkey
  case drw | ldB | storeRegs | loadRegs => exact withRange_of_fault h

theorem addressOperand_toNat (nnn : Addr12) : (addressOperand nnn).toNat = nnn.toNat :=
  BitVec.toNat_setWidth_of_le (by omega)

theorem wideOperand_toNat (b : Byte) : (wideOperand b).toNat = b.toNat :=
  BitVec.toNat_setWidth_of_le (by omega)

/-- Bnnn never reaches 2^16 (R129). -/
theorem addressOperand_add_wideOperand_toNat (nnn : Addr12) (b : Byte) :
    (addressOperand nnn + wideOperand b).toNat = nnn.toNat + b.toNat := by
  have hnnn := nnn.isLt
  have hb := b.isLt
  rw [BitVec.toNat_add, addressOperand_toNat, wideOperand_toNat]
  omega

theorem skipIf_target (b : Bool) (pc : Word) : (skipIf b).target pc = if b = true then pc + 4 else pc + 2 := by
  cases b <;> rfl

theorem skipIf_target_allowed (b : Bool) (pc : Word) :
    (skipIf b).target pc = pc + 2 ∨ (skipIf b).target pc = pc + 4 := by
  cases b
  · exact .inl rfl
  · exact .inr rfl

theorem sysMode_eq_nop {m : SysMode} (h : m ≠ .fault) : m = .nop := by
  cases m
  · rfl
  · exact absurd rfl h

/-- An instruction without a fault completes: it keeps the run state and takes one of its PC actions (R105, R106). -/
theorem exec_of_no_fault {i : Instr} {s : State} (h : faultOf i s = none) :
    ∃ t, exec i s = .next t ∧ t.run = s.run ∧ pcAllowed i s t.pc := by
  cases i <;> simp only [faultOf, ite_eq_right_iff, reduceCtorEq, imp_false] at h
  case sys nnn =>
    have hm : s.sysMode = .nop := sysMode_eq_nop h
    exact ⟨_, execSys_of_nop nnn hm, rfl, rfl⟩
  case call nnn => exact ⟨_, execCall_of_lt nnn (by omega), rfl, addressOperand_toNat nnn⟩
  case ret ign => exact ⟨_, execRet_of_pos ign (by omega), rfl, by omega, rfl⟩
  case jmp nnn => exact ⟨_, rfl, rfl, addressOperand_toNat nnn⟩
  case jmpV0 nnn => exact ⟨_, rfl, rfl, addressOperand_add_wideOperand_toNat nnn _⟩
  case seImm | sneImm | seReg | sneReg => exact ⟨_, rfl, rfl, skipIf_target_allowed _ _⟩
  case skp | sknp => exact ⟨_, if_neg h, rfl, skipIf_target_allowed _ _⟩
  case drw | ldB => exact ⟨_, withRange_of_no_fault h, rfl, rfl⟩
  case storeRegs => exact ⟨_, withRange_of_no_fault h, by rw [State.storeBlock_eq]; exact ⟨rfl, rfl⟩⟩
  case loadRegs => exact ⟨_, withRange_of_no_fault h, by rw [State.loadBlock_eq]; exact ⟨rfl, rfl⟩⟩
  case shr => exact ⟨_, execShr_eq rfl, rfl, rfl⟩
  case shl => exact ⟨_, execShl_eq rfl, rfl, rfl⟩
  case ldVxK =>
    simp only [exec, execLdVxK]
    split
    · exact ⟨_, rfl, rfl, .inr rfl⟩
    · exact ⟨_, rfl, rfl, .inl rfl⟩
  case cls | ldImm | addImm | ldReg | orReg | andReg | xorReg | addReg | subReg | subn | ldI | rnd | ldVxDt | ldDtVx
      | ldStVx | addI | ldF =>
    exact ⟨_, rfl, rfl, rfl⟩

/-- Every instruction completes by one of its PC actions or ends in its fault. -/
theorem exec_ends (i : Instr) (s : State) :
    ∃ t, exec i s = .next t ∧
      ((t.run = s.run ∧ pcAllowed i s t.pc) ∨
        ∃ c info, faultOf i s = some (c, info) ∧ t = s.raise c (encode i) info) := by
  cases h : faultOf i s with
  | none =>
    obtain ⟨t, ht, hdone⟩ := exec_of_no_fault h
    exact ⟨t, ht, .inl hdone⟩
  | some f => exact ⟨_, exec_of_fault h, .inr ⟨_, _, rfl, rfl⟩⟩

/-- In a running engine the run state tells how the instruction ended. -/
theorem exec_ends_of_running {i : Instr} {s t : State} (hr : s.run = .running) (h : exec i s = .next t) :
    (t.run = .running ∧ pcAllowed i s t.pc) ∨
      ∃ c info, faultOf i s = some (c, info) ∧ t = s.raise c (encode i) info := by
  obtain ⟨t', ht', hend⟩ := exec_ends i s
  obtain rfl : t = t' := Host.Outcome.next.inj (h.symm.trans ht')
  rwa [hr] at hend

theorem canRaise_of_faultOf {i : Instr} {s : State} {c : Cause} {info : Nat} (h : faultOf i s = some (c, info)) :
    canRaise i c = true := by
  cases i <;> simp only [faultOf, Option.ite_none_right_eq_some, Option.map_eq_some_iff, Option.some.injEq,
    Prod.mk.injEq, reduceCtorEq] at h
  case sys | call | ret | skp | sknp =>
    obtain ⟨-, rfl, -⟩ := h
    rfl
  case drw | ldB | storeRegs | loadRegs =>
    obtain ⟨-, -, rfl, -⟩ := h
    rfl

/-- An instruction exists only where its word decoded (R232). -/
theorem canRaise_decode (i : Instr) : canRaise i .decode = false := by
  cases i <;> rfl

/-- Settles O16: `exec_ends`, with the causes of `faultOf` among those R240 lists. -/
theorem instructionsCompleteOrFaultAsListed : Obligations.InstructionsCompleteOrFaultAsListed := by
  intro i s
  obtain ⟨t, ht, ⟨hrun, -⟩ | ⟨c, info, hf, rfl⟩⟩ := exec_ends i s
  · exact ⟨t, ht, .inl hrun⟩
  · exact ⟨_, ht, .inr ⟨c, info, canRaise_of_faultOf hf, rfl⟩⟩

/-- Settles O17: in a running engine `exec_ends_of_running` tells the two ends apart. -/
theorem pcMovesOnlyByThePcActions : Obligations.PcMovesOnlyByThePcActions := by
  intro i s t hr h
  obtain ⟨hrun, hpc⟩ | ⟨c, info, -, rfl⟩ := exec_ends_of_running hr h
  · exact ⟨fun _ => hpc, fun hhalt => absurd hrun hhalt⟩
  · exact ⟨nofun, fun _ => rfl⟩

/-! ## The cycle's checks, in order (R240) -/

theorem step_of_cycle {s u : State} (ha : s.env.agent = .cycle) (hr : s.run = .running) (h : cycle s = .next u) :
    step s = .next u.serveEnv := by
  simp only [step, ha, cycleTurn, hr, h]

theorem cycle_of_quit {s : State} (hq : s.env.quit = true) : cycle s = .next { s with run := .halted .quit } :=
  if_pos hq

theorem State.fetch_of_gt {s : State} (hpc : 0xFFE < s.pc.toNat) : s.fetch = none := if_pos (by omega)

theorem State.fetch_of_le {s : State} (hpc : s.pc.toNat ≤ 0xFFE) : s.fetch = some s.wordAtPc := if_neg (by omega)

theorem State.gt_of_fetch {s : State} (h : s.fetch = none) : 0xFFE < s.pc.toNat := by
  by_contra hle
  rw [State.fetch_of_le (by omega)] at h
  cases h

theorem State.le_of_fetch {s : State} {w : Word} (h : s.fetch = some w) : s.pc.toNat ≤ 0xFFE := by
  by_contra hgt
  rw [State.fetch_of_gt (by omega)] at h
  cases h

theorem cycle_of_unfetchable {s : State} (hq : s.env.quit = false) (hpc : 0xFFE < s.pc.toNat) :
    cycle s = .next (s.raise .fetchRange 0 s.pc.toNat) := by
  simp [cycle, hq, State.fetch_of_gt hpc]

theorem cycle_of_illegal {s : State} (hq : s.env.quit = false) (hpc : s.pc.toNat ≤ 0xFFE)
    (hw : isIllegal s.wordAtPc = true) : cycle s = .next (s.raise .decode s.wordAtPc s.wordAtPc.toNat) := by
  simp [cycle, hq, State.fetch_of_le hpc, decode_of_illegal hw]

theorem cycle_of_decode {s t : State} {i : Instr} (hq : s.env.quit = false) (hpc : s.pc.toNat ≤ 0xFFE)
    (hi : decode s.wordAtPc = .ok i) (ht : exec i s.beginCycle = .next t) : cycle s = .next (s.endCycle t) := by
  simp [cycle, hq, State.fetch_of_le hpc, hi, ht]

/-- Settles O12: the first check of the cycle. -/
theorem quitHaltsBeforeTheFetch : Obligations.QuitHaltsBeforeTheFetch := fun _ ha hr hq =>
  step_of_cycle ha hr (cycle_of_quit hq)

/-- Settles O10: the second check of the cycle. -/
theorem fetchAboveTheLastWordHalts : Obligations.FetchAboveTheLastWordHalts := fun _ ⟨ha, hr, hq⟩ hpc =>
  step_of_cycle ha hr (cycle_of_unfetchable hq hpc)

/-- Settles O11: the third check of the cycle; a decoded instruction raises no Decode (`canRaise_decode`). -/
theorem decodeFaultExactlyOnIllegalWords : Obligations.DecodeFaultExactlyOnIllegalWords := by
  intro s ⟨ha, hr, hq⟩ hpc
  refine ⟨isIllegal_iff_no_row, fun hw => step_of_cycle ha hr (cycle_of_illegal hq hpc hw), fun hw => ?_⟩
  obtain ⟨i, hi⟩ := exists_decode_of_legal hw
  obtain ⟨t, ht, hend⟩ := exec_ends i s.beginCycle
  refine ⟨_, step_of_cycle ha hr (cycle_of_decode hq hpc hi ht), fun pc w info => ?_⟩
  rw [State.serveEnv_run, State.endCycle_run]
  obtain ⟨hrun, -⟩ | ⟨c, info, hf, rfl⟩ := hend
  · rw [hrun, State.beginCycle_run, hr]
    nofun
  · rw [State.raise_run]
    rintro ⟨⟩
    have hraise := canRaise_of_faultOf hf
    rw [canRaise_decode] at hraise
    cases hraise

/-- Settles O8: the execute step always answers a next state (`exec_ends`), and `endCycle` is the case split of the
statement. -/
theorem stepRunsTheDecodedInstruction : Obligations.StepRunsTheDecodedInstruction := by
  intro s i hd hf
  obtain ⟨t, ht, -⟩ := exec_ends i s.beginCycle
  have hstep : step s = .next (s.endCycle t).serveEnv := (step_eq_next_iff hd hf).mpr ⟨t, ht, rfl⟩
  rw [hstep, show exec i { s with draw := false } = .next t from ht]
  by_cases hr : t.run = .running
  · rw [State.endCycle_of_running s hr]
    exact (if_pos hr).symm
  · rw [State.endCycle_of_not_running s hr]
    exact (if_neg hr).symm

/-- Settles O9: a faulted execute step is one that is not running at the cycle's end. -/
theorem instructionFaultHaltsPrecisely : Obligations.InstructionFaultHaltsPrecisely := fun _ _ _ _ hd hf h =>
  (step_eq_next_iff hd hf).mpr ⟨_, h, rfl⟩

/-- Settles O13: by the cycle agent's turn in a halted engine. -/
theorem haltedEngineHasNoCycle : Obligations.HaltedEngineHasNoCycle := by
  intro s r ha hr
  simp only [step, ha, cycleTurn, hr]

/-- Settles O29: of the two kinds of step only the tick is one of a halted engine. -/
theorem haltIsFinal : Obligations.HaltIsFinal := by
  intro s t r hr h
  obtain ⟨-, rfl⟩ | ⟨-, hrun, -⟩ := step_cases h
  · exact ⟨hr, s.onlyTimersAndEnv_tick_serveEnv, decTimer_toNat s.dt, decTimer_toNat s.st⟩
  · rw [hr] at hrun
    cases hrun

end Sys2Proof.Machine

/-! PROOF. What no instruction touches but those listed for it (10_state.md R20 to R31), and what no instruction
reads. -/

namespace Sys2Proof.Machine

/-! ## Frames -/

/-- What every instruction leaves as it was, field by field, with the instructions that R23 to R31 except. -/
structure ExecFrame (i : Instr) (s t : State) : Prop where
  stack : touchesStack i = false → sameStack s t
  index : writesI i = false → t.i = s.i
  fb : writesFb i = false → t.fb = s.fb
  dt : (∀ x, i ≠ .ldDtVx x) → t.dt = s.dt
  st : (∀ x, i ≠ .ldStVx x) → t.st = s.st
  draw : (∀ x y n, i ≠ .drw x y n) → t.draw = s.draw
  mem : (∀ x, i ≠ .ldB x) → (∀ x, i ≠ .storeRegs x) → t.mem = s.mem
  config : sameConfig s t
  redrawCtr : t.redrawCtr = s.redrawCtr
  redraw : t.redraw = s.redraw
  env : t.env = s.env
  envSeq : t.envSeq = s.envSeq

theorem State.copyShiftOperand_eq (s : State) (x y : Nibble) :
    s.copyShiftOperand x y = { s with v := (s.copyShiftOperand x y).v } := by
  unfold State.copyShiftOperand
  split <;> rfl

theorem ExecFrame.of_v_pc_run {i : Instr} {s t : State} (h : t = { s with v := t.v, pc := t.pc, run := t.run }) :
    ExecFrame i s t := by
  rw [h]
  constructor <;> simp [sameStack, sameConfig]

theorem exec_frame {i : Instr} {s t : State} (h : exec i s = .next t) : ExecFrame i s t := by
  obtain ⟨c, info, rfl⟩ | h := exec_cases h
  · exact .of_v_pc_run rfl
  cases i <;> simp only at h
  case sys | jmp | jmpV0 | seImm | sneImm | seReg | sneReg | skp | sknp | ldImm | addImm | ldReg | rnd | ldVxDt =>
    obtain ⟨_, rfl⟩ := h
    exact .of_v_pc_run rfl
  case orReg | andReg | xorReg | addReg | subReg | subn =>
    obtain ⟨_, _, rfl⟩ := h
    exact .of_v_pc_run rfl
  case shr | shl =>
    obtain ⟨_, _, rfl⟩ := h
    exact .of_v_pc_run (by rw [State.copyShiftOperand_eq]; rfl)
  case ldVxK =>
    obtain ⟨_, rfl⟩ | rfl := h <;> exact .of_v_pc_run rfl
  case ret | call =>
    obtain ⟨_, rfl⟩ := h
    constructor <;> simp [touchesStack, sameConfig]
  case cls | ldI | addI | ldF | ldDtVx | ldStVx | drw =>
    subst h
    constructor <;> simp [writesFb, writesI, sameConfig, sameStack]
  case ldB =>
    obtain ⟨-, rfl⟩ := h
    constructor <;> simp [sameConfig, sameStack]
  case storeRegs =>
    obtain ⟨-, rfl⟩ := h
    rw [State.storeBlock_eq]
    constructor <;> simp [writesI, sameConfig, sameStack]
  case loadRegs =>
    obtain ⟨-, rfl⟩ := h
    rw [State.loadBlock_eq]
    constructor <;> simp [writesI, sameConfig, sameStack]

/-- Settles O18: a field of `exec_frame`. -/
theorem onlyCallAndRetTouchTheStack : Obligations.OnlyCallAndRetTouchTheStack := fun _ _ _ h => (exec_frame h).stack

/-- Settles O19: a field of `exec_frame`. -/
theorem onlyListedInstructionsWriteI : Obligations.OnlyListedInstructionsWriteI := fun _ _ _ h => (exec_frame h).index

/-- Settles O20: a field of `exec_frame`. -/
theorem onlyClsAndDrwWriteTheFramebuffer : Obligations.OnlyClsAndDrwWriteTheFramebuffer := fun _ _ _ h =>
  (exec_frame h).fb

/-- Settles O21: two fields of `exec_frame`. -/
theorem onlyFx15AndFx18WriteTheTimers : Obligations.OnlyFx15AndFx18WriteTheTimers := fun _ _ _ h =>
  ⟨(exec_frame h).dt, (exec_frame h).st⟩

/-- Settles O22: a field of `exec_frame`. -/
theorem onlyDrwSetsTheDrawFlag : Obligations.OnlyDrwSetsTheDrawFlag := fun _ _ _ h => (exec_frame h).draw

/-! ## Memory and the V registers -/

theorem sameMemoryOutside_of_mem_eq {s t : State} (base n : Nat) (h : t.mem = s.mem) :
    sameMemoryOutside base n s t := fun a _ => congrArg (Memory.read · a) h

theorem readByte_digits {s : State} {base a : Nat} {b₀ b₁ b₂ : Byte} :
    (((s.writeByte base b₀).writeByte (base + 1) b₁).writeByte (base + 2) b₂).readByte a =
      if a = base + 2 then b₂ else if a = base + 1 then b₁ else if a = base then b₀ else s.readByte a := by
  simp only [State.readByte_writeByte]

/-- Settles O23: Fx33 and Fx55 by what their stores read back as; every other instruction keeps memory
(`exec_frame`). -/
theorem memoryChangesOnlyWhereStored : Obligations.MemoryChangesOnlyWhereStored := by
  intro i s t hexec
  obtain ⟨c, info, rfl⟩ | h := exec_cases hexec
  · exact fun _ _ => rfl
  by_cases hb : ∃ x, i = .ldB x
  · obtain ⟨x, rfl⟩ := hb
    obtain ⟨-, rfl⟩ := h
    intro a ha
    simp only [storedRange] at ha
    rw [State.applyPcAction_readByte, readByte_digits, if_neg (by omega), if_neg (by omega), if_neg (by omega)]
  by_cases hs : ∃ x, i = .storeRegs x
  · obtain ⟨x, rfl⟩ := hs
    obtain ⟨-, rfl⟩ := h
    intro a ha
    simp only [storedRange] at ha
    rw [State.applyPcAction_readByte, State.setI_readByte, State.storeBlock_readByte, if_neg (by omega)]
  · exact sameMemoryOutside_of_mem_eq _ _ ((exec_frame hexec).mem (not_exists.mp hb) (not_exists.mp hs))

/-- Settles O24: by `exec_cases`, each write of a register passed over by `State.getV_setV_of_ne`. -/
theorem registersChangeOnlyAsListed : Obligations.RegistersChangeOnlyAsListed := by
  intro i s t hexec r hr
  obtain ⟨c, info, rfl⟩ | h := exec_cases hexec
  · rfl
  cases i <;> simp only [mayWriteV, not_or, not_false_eq_true] at h hr
  case sys | jmp | jmpV0 | seImm | sneImm | seReg | sneReg | skp | sknp | ret | call =>
    obtain ⟨_, rfl⟩ := h
    rfl
  case cls | ldI | addI | ldF | ldDtVx | ldStVx =>
    subst h
    rfl
  case ldImm | addImm | ldReg | rnd | ldVxDt =>
    obtain ⟨_, rfl⟩ := h
    exact State.getV_setV_of_ne _ hr _
  case ldVxK =>
    obtain ⟨_, rfl⟩ | rfl := h
    · exact State.getV_setV_of_ne _ hr _
    · rfl
  case orReg | andReg | xorReg | addReg | subReg | subn =>
    obtain ⟨_, _, rfl⟩ := h
    exact (State.getV_setV_of_ne _ hr.2 _).trans (State.getV_setV_of_ne _ hr.1 _)
  case shr | shl =>
    obtain ⟨_, _, rfl⟩ := h
    rw [State.setV_copyShiftOperand]
    exact (State.getV_setV_of_ne _ hr.2 _).trans (State.getV_setV_of_ne _ hr.1 _)
  case drw =>
    subst h
    exact State.getV_setV_of_ne _ hr _
  case ldB =>
    obtain ⟨-, rfl⟩ := h
    rfl
  case storeRegs =>
    obtain ⟨-, rfl⟩ := h
    exact State.storeBlock_getV _ _ _ _
  case loadRegs x =>
    obtain ⟨-, rfl⟩ := h
    have hx := x.isLt
    rw [State.applyPcAction_getV, State.setI_getV, State.loadBlock_getV _ _ (by omega), if_neg (by omega)]

/-! ## What no instruction reads (R26, R31)

ST, the redraw counter and the output `redraw` are read by no instruction, and DT by Fx07 alone. -/

/-- The state with other values in the timers and the redraw logic. -/
def State.withHidden (s : State) (d b : Byte) (c : BitVec 7) (r : Bool) : State :=
  { s with dt := d, st := b, redrawCtr := c, redraw := r }

/-- DT in t, the next state of i, when DT was d before: only Fx15 does not keep it. -/
def dtAfter (i : Instr) (t : State) (d : Byte) : Byte :=
  match i with
  | .ldDtVx _ => t.dt
  | _ => d

/-- ST in t, the next state of i, when ST was b before: only Fx18 does not keep it. -/
def stAfter (i : Instr) (t : State) (b : Byte) : Byte :=
  match i with
  | .ldStVx _ => t.st
  | _ => b

theorem dtAfter_of_ne {i : Instr} (h : ∀ x, i ≠ .ldDtVx x) (t : State) (d : Byte) : dtAfter i t d = d := by
  unfold dtAfter
  split
  · next x => exact absurd rfl (h x)
  · rfl

theorem stAfter_of_ne {i : Instr} (h : ∀ x, i ≠ .ldStVx x) (t : State) (b : Byte) : stAfter i t b = b := by
  unfold stAfter
  split
  · next x => exact absurd rfl (h x)
  · rfl

theorem dtAfter_exec {i : Instr} {s t : State} (h : exec i s = .next t) : dtAfter i t s.dt = t.dt := by
  unfold dtAfter
  split
  · rfl
  · next hne => exact ((exec_frame h).dt hne).symm

theorem stAfter_exec {i : Instr} {s t : State} (h : exec i s = .next t) : stAfter i t s.st = t.st := by
  unfold stAfter
  split
  · rfl
  · next hne => exact ((exec_frame h).st hne).symm

section
variable {i : Instr} {s t : State} {d b : Byte} {c : BitVec 7} {r : Bool}

theorem State.storeBlock_withHidden (base n : Nat) :
    (s.withHidden d b c r).storeBlock base n = (s.storeBlock base n).withHidden d b c r := by
  induction n with
  | zero => rfl
  | succ n ih => simp only [State.storeBlock, ih]; rfl

theorem State.loadBlock_withHidden (base n : Nat) :
    (s.withHidden d b c r).loadBlock base n = (s.loadBlock base n).withHidden d b c r := by
  induction n with
  | zero => rfl
  | succ n ih => simp only [State.loadBlock, ih]; rfl

theorem execLdVxK_of_none {x : Nibble} (h : chooseKey s.env.keys s.env.choice = none) : execLdVxK x s = .next s := by
  simp only [execLdVxK, h]
  rfl

theorem execLdVxK_of_some {x : Nibble} {k : Byte} (h : chooseKey s.env.keys s.env.choice = some k) :
    execLdVxK x s = complete .advance (s.setV x k) := by
  simp only [execLdVxK, h]

theorem faultOf_withHidden : faultOf i (s.withHidden d b c r) = faultOf i s := by
  cases i <;> rfl

theorem exec_withHidden_of_no_fault (hf : faultOf i s = none) (hd : (∀ x, i ≠ .ldVxDt x) ∨ d = s.dt)
    (h : exec i s = .next t) :
    exec i (s.withHidden d b c r) = .next (t.withHidden (dtAfter i t d) (stAfter i t b) c r) := by
  cases i <;> simp only [faultOf, ite_eq_right_iff, reduceCtorEq, imp_false] at hf <;> simp only [exec] at h ⊢
  case sys nnn =>
    have hm : s.sysMode = .nop := sysMode_eq_nop hf
    rw [execSys_of_nop nnn hm] at h
    cases h
    exact execSys_of_nop nnn hm
  case call nnn =>
    have hlt : s.sp.val < 16 := by omega
    rw [execCall_of_lt nnn hlt] at h
    cases h
    exact execCall_of_lt (s := s.withHidden d b c r) nnn hlt
  case ret ign =>
    have hpos : 0 < s.sp.val := by omega
    rw [execRet_of_pos ign hpos] at h
    cases h
    exact execRet_of_pos (s := s.withHidden d b c r) ign hpos
  case skp | sknp =>
    cases (if_neg hf).symm.trans h
    exact if_neg hf
  case drw | ldB =>
    cases (withRange_of_no_fault hf).symm.trans h
    exact withRange_of_no_fault hf
  case storeRegs x =>
    cases (withRange_of_no_fault hf).symm.trans h
    refine (withRange_of_no_fault (s := s.withHidden d b c r) hf).trans ?_
    rw [State.storeBlock_withHidden]
    rfl
  case loadRegs x =>
    cases (withRange_of_no_fault hf).symm.trans h
    refine (withRange_of_no_fault (s := s.withHidden d b c r) hf).trans ?_
    rw [State.loadBlock_withHidden]
    rfl
  case shr =>
    cases (execShr_eq rfl).symm.trans h
    exact execShr_eq rfl
  case shl =>
    cases (execShl_eq rfl).symm.trans h
    exact execShl_eq rfl
  case ldVxK =>
    cases hk : chooseKey s.env.keys s.env.choice with
    | none =>
      cases (execLdVxK_of_none hk).symm.trans h
      exact execLdVxK_of_none hk
    | some k =>
      cases (execLdVxK_of_some hk).symm.trans h
      exact execLdVxK_of_some hk
  case ldVxDt x =>
    obtain rfl : d = s.dt := hd.resolve_left fun hne => hne x rfl
    cases h
    rfl
  case cls | jmp | seImm | sneImm | seReg | ldImm | addImm | ldReg | orReg | andReg | xorReg | addReg | subReg | subn
      | sneReg | ldI | jmpV0 | rnd | ldDtVx | ldStVx | addI | ldF =>
    cases h
    rfl

theorem exec_withHidden (hd : (∀ x, i ≠ .ldVxDt x) ∨ d = s.dt) (h : exec i s = .next t) :
    exec i (s.withHidden d b c r) = .next (t.withHidden (dtAfter i t d) (stAfter i t b) c r) := by
  cases hf : faultOf i s with
  | none => exact exec_withHidden_of_no_fault hf hd h
  | some f =>
    obtain rfl := Host.Outcome.next.inj ((exec_of_fault hf).symm.trans h)
    rw [exec_of_fault (faultOf_withHidden.trans hf), dtAfter_of_ne, stAfter_of_ne]
    · rfl
    all_goals
      rintro x rfl
      cases hf

end

/-- Settles O26: `exec_withHidden` with ST alone changed. -/
theorem noInstructionReadsTheSoundTimer : Obligations.NoInstructionReadsTheSoundTimer := by
  intro i s b hst
  obtain ⟨t, ht, -⟩ := exec_ends i s
  have hframe := exec_frame ht
  have hhidden := exec_withHidden (b := b) (c := s.redrawCtr) (r := s.redraw) (.inr rfl) ht
  refine ⟨t, ht, hhidden.trans (congrArg _ ?_)⟩
  rw [dtAfter_exec ht, stAfter_of_ne hst, ← hframe.redrawCtr, ← hframe.redraw]
  rfl

/-- Settles O27: `exec_withHidden` with the redraw logic alone changed. -/
theorem programsCannotReadTheRedrawLogic : Obligations.ProgramsCannotReadTheRedrawLogic := by
  intro i s c r
  obtain ⟨t, ht, -⟩ := exec_ends i s
  have hhidden := exec_withHidden (b := s.st) (c := c) (r := r) (.inr rfl) ht
  rw [dtAfter_exec ht, stAfter_exec ht] at hhidden
  exact ⟨t, ht, hhidden⟩

/-- Settles O28: `exec_withHidden` with both timers ticked. -/
theorem ticksCommuteWithOtherInstructions : Obligations.TicksCommuteWithOtherInstructions := by
  intro i s hread hdt hst
  obtain ⟨t, ht, -⟩ := exec_ends i s
  have hframe := exec_frame ht
  have hhidden := exec_withHidden (d := decTimer s.dt) (b := decTimer s.st) (c := s.redrawCtr) (r := s.redraw)
    (.inl hread) ht
  refine ⟨t, ht, hhidden.trans (congrArg _ ?_)⟩
  rw [dtAfter_of_ne hdt, stAfter_of_ne hst, ← hframe.dt hdt, ← hframe.st hst, ← hframe.redrawCtr, ← hframe.redraw]
  rfl

end Sys2Proof.Machine

/-! PROOF. The invariants of the machine: kept by every step, met at reset. -/

namespace Sys2Proof.Machine

/-! ## One step, for a predicate that halts, ticks and new slots of the environment cannot break -/

/-- Such a predicate is an invariant when every completed cycle keeps it. -/
theorem step_keeps {P : State → Prop} (htick : ∀ s, P s → P s.tick) (henv : ∀ s, P s → P s.serveEnv)
    (hhalt : ∀ s r, P s → P { s with run := .halted r })
    (hdone : ∀ s i t, P s → s.run = .running → s.pc.toNat ≤ 0xFFE → exec i s.beginCycle = .next t →
      t.run = .running → P t.redrawUpdate)
    {s t : State} (hs : P s) (h : step s = .next t) : P t := by
  obtain ⟨-, rfl⟩ | ⟨-, hr, u, hu, rfl⟩ := step_cases h
  · exact henv _ (htick s hs)
  refine henv u ?_
  obtain ⟨-, rfl⟩ | ⟨-, -, rfl⟩ | ⟨w, e, -, -, -, rfl⟩ | ⟨w, i, v, -, hf, -, hv, rfl⟩ := cycle_cases hu
  · exact hhalt s _ hs
  · exact hhalt s _ hs
  · exact hhalt s _ hs
  have hpc : s.pc.toNat ≤ 0xFFE := State.le_of_fetch hf
  cases hrun : v.run with
  | running =>
    rw [State.endCycle_of_running s hrun]
    exact hdone s i v hs hr hpc hv hrun
  | halted r =>
    rw [State.endCycle_of_not_running s (by rw [hrun]; nofun), hrun]
    exact hhalt s r hs

/-- Settles O25: `step_keeps` for the states that share the configuration of the first. -/
theorem configurationIsReadOnly : Obligations.ConfigurationIsReadOnly := by
  intro s₀ t h
  refine step_keeps (P := sameConfig s₀) (fun _ hs => hs) (fun _ hs => hs) (fun _ _ hs => hs) ?_ ⟨rfl, rfl, rfl⟩ h
  intro s i u hs _ _ hu _
  obtain ⟨hshift, hclip, hsys⟩ := (exec_frame hu).config
  obtain ⟨hshift₀, hclip₀, hsys₀⟩ := hs
  rw [State.redrawUpdate_eq]
  exact ⟨hshift.trans hshift₀, hclip.trans hclip₀, hsys.trans hsys₀⟩

/-! ## Memory -/

theorem exec_mem_wf {i : Instr} {s t : State} (hexec : exec i s = .next t) (hs : s.mem.wf = true) :
    t.mem.wf = true := by
  obtain ⟨c, info, rfl⟩ | h := exec_cases hexec
  · exact hs
  by_cases hb : ∃ x, i = .ldB x
  · obtain ⟨x, rfl⟩ := hb
    obtain ⟨hfits, rfl⟩ := h
    exact Memory.wf_write _ (Memory.wf_write _ (Memory.wf_write _ hs (by omega)) (by omega)) (by omega)
  by_cases hr : ∃ x, i = .storeRegs x
  · obtain ⟨x, rfl⟩ := hr
    obtain ⟨hfits, rfl⟩ := h
    exact State.storeBlock_wf hs (by omega)
  · rw [(exec_frame hexec).mem (not_exists.mp hb) (not_exists.mp hr)]
    exact hs

/-- Settles O30: `step_keeps` with `exec_mem_wf`. -/
theorem stepKeepsMemoryCanonical : Obligations.StepKeepsMemoryCanonical := by
  intro s t hs h
  refine step_keeps (P := memoryInv) (fun _ hs => hs) (fun _ hs => hs) (fun _ _ hs => hs) ?_ hs h
  intro s i u hs _ _ hu _
  have hwf : u.mem.wf = true := exec_mem_wf hu hs
  rw [State.redrawUpdate_eq]
  exact hwf

/-! ## PC and the stack -/

/-- From a fetchable PC, with a stack of fetchable addresses, no PC action goes past 0x10FE. -/
theorem pcAllowed_le {i : Instr} {s : State} {pc : Word} (hpc : s.pc.toNat ≤ 0xFFE)
    (hstack : ∀ k (h : k < 16), (s.stack[k]).toNat ≤ 0xFFE) (h : pcAllowed i s pc) : pc.toNat ≤ 0x10FE := by
  cases i <;> simp only [pcAllowed] at h
  case jmp nnn | call nnn => have := nnn.isLt; omega
  case jmpV0 nnn => have := nnn.isLt; have := (s.getV 0).isLt; omega
  case ret =>
    obtain ⟨hpos, rfl⟩ := h
    have := hstack (s.sp.val - 1) (by omega)
    bv_omega
  case seImm | sneImm | seReg | sneReg | skp | sknp | ldVxK => obtain rfl | rfl := h <;> bv_omega
  all_goals
    subst h
    bv_omega

theorem exec_stack_le {i : Instr} {s t : State} (hexec : exec i s = .next t) (hpc : s.pc.toNat ≤ 0xFFE)
    (hstack : ∀ k (h : k < 16), (s.stack[k]).toNat ≤ 0xFFE) : ∀ k (h : k < 16), (t.stack[k]).toNat ≤ 0xFFE := by
  obtain ⟨c, info, rfl⟩ | h := exec_cases hexec
  · exact hstack
  by_cases hi : touchesStack i = false
  · rw [((exec_frame hexec).stack hi).1]
    exact hstack
  cases i <;> simp only [touchesStack, not_true_eq_false] at h hi
  case ret =>
    obtain ⟨-, rfl⟩ := h
    exact hstack
  case call =>
    obtain ⟨hlt, rfl⟩ := h
    intro k hk
    show ((s.stack.set s.sp.val s.pc)[k]).toNat ≤ 0xFFE
    rw [Vector.getElem_set]
    split
    · exact hpc
    · exact hstack k hk

/-- Settles O31: `step_keeps`; PC by the PC actions (`pcAllowed_le`), the stack by `exec_stack_le`. -/
theorem stepKeepsPcBound : Obligations.StepKeepsPcBound := by
  intro s t hs h
  refine step_keeps (P := pcBoundInv) (fun _ hs => hs) (fun _ hs => hs) (fun _ _ hs => hs) ?_ hs h
  intro s i u ⟨_, hstack⟩ hr hpc hu hrun
  have hbound : pcBoundInv u := by
    refine ⟨?_, exec_stack_le hu hpc hstack⟩
    obtain ⟨-, hallowed⟩ | ⟨c, info, -, rfl⟩ := exec_ends_of_running (s := s.beginCycle) hr hu
    · exact pcAllowed_le hpc hstack hallowed
    · cases hrun
  rw [State.redrawUpdate_eq]
  exact hbound

/-! ## The redraw logic -/

/-- Whatever the redraw logic was, the update leaves it consistent. -/
theorem redrawInv_redrawUpdate {s : State} (hc : s.redrawCtr.toNat ≤ 99) : redrawInv s.redrawUpdate := by
  have hdraw : s.redrawUpdate.draw = s.draw := by rw [State.redrawUpdate_eq]
  unfold redrawInv
  rw [hdraw]
  cases hd : s.draw with
  | true =>
    obtain ⟨hctr, hredraw⟩ := State.redrawUpdate_of_draw hd
    rw [hctr]
    exact ⟨by decide, fun _ => rfl, fun _ => hredraw⟩
  | false =>
    obtain ⟨hctr, hredraw⟩ := State.redrawUpdate_of_not_draw hd hc
    refine ⟨by omega, fun h => BitVec.eq_of_toNat_eq ?_, nofun⟩
    rw [hctr, of_decide_eq_true (hredraw.symm.trans h)]
    rfl

/-- Settles O32: `step_keeps` with `redrawInv_redrawUpdate`. -/
theorem stepKeepsRedrawCounterInRange : Obligations.StepKeepsRedrawCounterInRange := by
  intro s t hs h
  refine step_keeps (P := redrawInv) (fun _ hs => hs) (fun _ hs => hs) (fun _ _ hs => hs) ?_ hs h
  intro s i u ⟨hctr, _⟩ _ _ hu _
  exact redrawInv_redrawUpdate ((exec_frame hu).redrawCtr ▸ hctr)

/-! ## The fault record -/

/-- What the fault of an instruction says is true of the state it is raised in (R230, R231). -/
theorem haltRecordInv_of_faultOf {i : Instr} {s : State} {c : Cause} {info : Nat} (hw : s.fetch = some (encode i))
    (h : faultOf i s = some (c, info)) : haltRecordInv (s.raise c (encode i) info) := by
  unfold haltRecordInv
  refine ⟨rfl, ?_⟩
  cases i <;> simp only [faultOf, Option.ite_none_right_eq_some, Option.map_eq_some_iff, Option.some.injEq,
    Prod.mk.injEq, reduceCtorEq] at h
  case sys =>
    obtain ⟨hm, rfl, rfl⟩ := h
    exact ⟨hw, hm, rfl⟩
  case call =>
    obtain ⟨hfull, rfl, rfl⟩ := h
    exact ⟨hw, Fin.ext hfull, rfl⟩
  case ret =>
    obtain ⟨hempty, rfl, rfl⟩ := h
    exact ⟨hw, Fin.ext hempty, rfl⟩
  case skp | sknp =>
    obtain ⟨hkey, rfl, rfl⟩ := h
    refine ⟨hw, hkey, ?_⟩
    rw [encode, fieldX_packXK]
    rfl
  case drw | ldB | storeRegs | loadRegs =>
    obtain ⟨a, ha, rfl, rfl⟩ := h
    obtain ⟨-, -, rfl⟩ := outOfRange_eq_some.mp ha
    exact ⟨hw, by omega, rfl⟩

/-- Settles O33: each check of the cycle that fails says of the state what its record says. -/
theorem stepKeepsFaultRecordTrue : Obligations.StepKeepsFaultRecordTrue := by
  intro s t hs h
  obtain ⟨-, rfl⟩ | ⟨-, hr, u, hu, rfl⟩ := step_cases h
  · exact hs
  show haltRecordInv u
  obtain ⟨-, rfl⟩ | ⟨-, hf, rfl⟩ | ⟨w, e, -, hf, he, rfl⟩ | ⟨w, i, v, -, hf, hi, hv, rfl⟩ := cycle_cases hu
  · trivial
  · exact ⟨rfl, rfl, State.gt_of_fetch hf, rfl⟩
  · exact ⟨rfl, hf, (decode_eq_error_iff.mp he).1, rfl⟩
  obtain ⟨hrun, -⟩ | ⟨c, info, hfault, rfl⟩ := exec_ends_of_running (s := s.beginCycle) hr hv
  · rw [haltRecordInv, State.endCycle_run, hrun]
    trivial
  · exact haltRecordInv_of_faultOf (s := s.beginCycle) (by rw [(encode_of_decode hi).1]; exact hf) hfault

/-! ## Reset -/

/-- Settles O34: closed facts about one state. -/
theorem resetMeetsEveryInvariant : Obligations.ResetMeetsEveryInvariant :=
  ⟨rfl, ⟨by decide, by decide⟩, ⟨by decide, by decide, by decide⟩, trivial⟩

end Sys2Proof.Machine

/-! PROOF. Reset and construction (10_state.md R35, 70_reset_and_hazards.md R260, R261). -/

namespace Sys2Proof.Machine

theorem FrameBuffer.blank_pixel (r : Fin 32) (c : Fin 64) : FrameBuffer.blank.pixel r c = false := by
  simp [FrameBuffer.blank, FrameBuffer.pixel]

theorem background_of_ge {a : Nat} (h : 80 ≤ a) : background a = 0 := dif_neg (by omega)

/-- Settles O35: the 80 font bytes by evaluation, the screen, the registers and the stack as replicated zeros. -/
theorem resetStateIsAsListed : Obligations.ResetStateIsAsListed := by
  refine ⟨rfl, FrameBuffer.blank_pixel, fun r => ?_, rfl, rfl, fun k hk => ?_, rfl, rfl, rfl, rfl, rfl,
    fun a => background_of_ge, by decide⟩
  · exact Vector.getElem_replicate ..
  · exact Vector.getElem_replicate ..

/-! ## Filling and copying -/

theorem read_fillMemory (fill : Byte) (m : Memory) (n a : Nat) :
    Memory.read (fillMemory fill m n) a = if a < n then fill else Memory.read m a := by
  induction n with
  | zero => rfl
  | succ n ih =>
    rw [fillMemory, Memory.read_write, ih]
    by_cases h : a = n
    · rw [if_pos h, if_pos (by omega)]
    · rw [if_neg h]
      exact if_congr (by omega) rfl rfl

theorem wf_fillMemory (fill : Byte) {m : Memory} {n : Nat} (h : m.wf = true) (hn : n ≤ 4096) :
    (fillMemory fill m n).wf = true := by
  induction n with
  | zero => exact h
  | succ n ih => exact Memory.wf_write fill (ih (by omega)) (by omega)

theorem read_copyBytes_of_lt {m : Memory} {a b : Nat} {bytes : List Byte} (h : b < a) :
    Memory.read (copyBytes m a bytes) b = Memory.read m b := by
  induction bytes generalizing m a with
  | nil => rfl
  | cons w rest ih => rw [copyBytes, ih (by omega), Memory.read_write, if_neg (by omega)]

theorem read_copyBytes_of_ge {m : Memory} {a b : Nat} {bytes : List Byte} (h : a + bytes.length ≤ b) :
    Memory.read (copyBytes m a bytes) b = Memory.read m b := by
  induction bytes generalizing m a with
  | nil => rfl
  | cons w rest ih =>
    rw [List.length_cons] at h
    rw [copyBytes, ih (by omega), Memory.read_write, if_neg (by omega)]

theorem read_copyBytes (m : Memory) (a : Nat) {k : Nat} {bytes : List Byte} (hk : k < bytes.length) :
    Memory.read (copyBytes m a bytes) (a + k) = bytes[k] := by
  induction bytes generalizing m a k with
  | nil => cases hk
  | cons w rest ih =>
    rw [copyBytes]
    cases k with
    | zero => rw [read_copyBytes_of_lt (by omega), Memory.read_write]; exact if_pos rfl
    | succ k =>
      rw [show a + (k + 1) = a + 1 + k by omega]
      exact ih (m.write a w) (a + 1) (Nat.lt_of_succ_lt_succ hk)

theorem wf_copyBytes {m : Memory} {a : Nat} {bytes : List Byte} (h : m.wf = true) (hn : a + bytes.length ≤ 4096) :
    (copyBytes m a bytes).wf = true := by
  induction bytes generalizing m a with
  | nil => exact h
  | cons w rest ih =>
    rw [List.length_cons] at hn
    exact ih (Memory.wf_write w h (by omega)) (by omega)

/-! ## The memory that Reset leaves -/

theorem read_resetMemory_rom (p : Params) {k : Nat} (hk : k < p.rom.length) :
    Memory.read (resetMemory p) (0x200 + k) = p.rom[k] := read_copyBytes _ _ hk

theorem read_resetMemory_font (p : Params) {a : Nat} (ha : a < 80) :
    Memory.read (resetMemory p) a = p.font[a] := by
  have hfont := read_copyBytes (fillMemory p.memFill [] Config.memSize) 0 (k := a) (bytes := p.font.toList)
    (by simpa using ha)
  rw [resetMemory, read_copyBytes_of_lt (by simp; omega)]
  simpa using hfont

theorem read_resetMemory_fill (p : Params) {a : Nat} (ha : a < 4096) (hfont : 80 ≤ a)
    (hrom : a < 0x200 ∨ 0x200 + p.rom.length ≤ a) : Memory.read (resetMemory p) a = p.memFill := by
  have hbelow : Memory.read (copyBytes (fillMemory p.memFill [] Config.memSize) 0 p.font.toList) a = p.memFill := by
    rw [read_copyBytes_of_ge (by simpa using hfont), read_fillMemory, if_pos ha]
  refine Eq.trans ?_ hbelow
  rcases hrom with hlt | hge
  · exact read_copyBytes_of_lt hlt
  · exact read_copyBytes_of_ge hge

theorem wf_resetMemory {p : Params} (h : p.rom.length ≤ 3584) : (resetMemory p).wf = true := by
  have hfill : (fillMemory p.memFill [] Config.memSize).wf = true := wf_fillMemory _ rfl (le_refl _)
  exact wf_copyBytes (wf_copyBytes hfill (by simp)) (by simp; omega)

/-- Settles O36: the last write to an address is the ROM's, else the font's, else the fill. -/
theorem constructionLoadsTheImage : Obligations.ConstructionLoadsTheImage := by
  refine fun p => ⟨fun h => ⟨_, if_neg (by simp; omega), fun a ha => ?_, fun _ => read_resetMemory_font p,
    fun _ => read_resetMemory_fill p, wf_resetMemory h, rfl⟩, fun h => if_pos h⟩
  obtain ⟨hge, hlt⟩ := ha
  obtain ⟨k, rfl⟩ := Nat.exists_eq_add_of_le hge
  simp only [Nat.add_sub_cancel_left] at hlt ⊢
  exact read_resetMemory_rom p hlt

end Sys2Proof.Machine

/-! PROOF. What single instructions do: 41_control_flow.md to 45_keys_timers.md, instruction by instruction. -/

namespace Sys2Proof.Machine

/-! ## Frames of one completed instruction -/

theorem onlyPc_applyPcAction (s : State) (a : PcAction) : onlyPc s (s.applyPcAction a) :=
  onlyVAndPc_of_eq (fun _ _ => rfl) rfl

theorem sameControl_of_eq {s t : State} (h : t = { s with
    v := t.v, i := t.i, pc := t.pc, stack := t.stack, sp := t.sp, dt := t.dt, st := t.st, fb := t.fb, mem := t.mem
    draw := t.draw }) : sameControl s t := by
  rw [h]
  exact ⟨⟨rfl, rfl, rfl⟩, rfl, rfl, rfl, rfl, rfl⟩

theorem sameOther_of_eq {s t : State} (h : t = { s with v := t.v, i := t.i, pc := t.pc, mem := t.mem }) :
    sameOther s t := by
  rw [h]
  exact ⟨rfl, rfl, ⟨rfl, rfl⟩, ⟨rfl, rfl⟩, ⟨rfl, rfl, rfl⟩, rfl, rfl, rfl, rfl, rfl⟩

/-! ## ALU and register moves (42_alu.md) -/

/-- Settles O41: three results of `writeResult_spec`. -/
theorem immediateLoadAddAndCopy : Obligations.ImmediateLoadAddAndCopy := by
  refine fun x y kk s => ⟨writeResult_spec x kk s, ?_, writeResult_spec x (s.getV y) s⟩
  obtain ⟨t, ht, hres, hframe⟩ := writeResult_spec x (s.getV x + kk) s
  exact ⟨t, ht, by rw [hres, BitVec.toNat_add], hframe⟩

/-- Settles O42: `writeResult_spec` for the masked byte. -/
theorem rndMasksTheRandomByte : Obligations.RndMasksTheRandomByte := fun x kk s =>
  ⟨⟨eq_of_beq (encodedInRow (.rnd x kk)), decode_encode rfl⟩, writeResult_spec x (s.env.rnd &&& kk) s⟩

/-! ## Control flow (41_control_flow.md) -/

theorem complete_skipIf_spec (b : Bool) (s : State) :
    ∃ t, complete (skipIf b) s = .next t ∧ t.pc = (if b = true then s.pc + 4 else s.pc + 2) ∧ onlyPc s t :=
  ⟨_, rfl, skipIf_target b s.pc, onlyPc_applyPcAction s _⟩

/-- The inverted skips, with the condition as the rules word it. -/
theorem complete_skipIf_not_spec (b : Bool) (s : State) :
    ∃ t, complete (skipIf (!b)) s = .next t ∧ t.pc = (if b = true then s.pc + 2 else s.pc + 4) ∧ onlyPc s t := by
  obtain ⟨t, ht, hpc, hframe⟩ := complete_skipIf_spec (!b) s
  exact ⟨t, ht, by rw [hpc]; cases b <;> rfl, hframe⟩

/-- Settles O43: two skips on a condition and two on its negation. -/
theorem skipsCompareAsNamed : Obligations.SkipsCompareAsNamed := by
  intro x y ign kk s
  have hkk := complete_skipIf_spec (s.getV x == kk) s
  have hkkNot := complete_skipIf_not_spec (s.getV x == kk) s
  have hy := complete_skipIf_spec (s.getV x == s.getV y) s
  have hyNot := complete_skipIf_not_spec (s.getV x == s.getV y) s
  simp only [beq_iff_eq] at hkk hkkNot hy hyNot
  exact ⟨hkk, hkkNot, hy, hyNot⟩

/-- Settles O44: both targets stay below 2^16. -/
theorem jumpsGoToTheirTargets : Obligations.JumpsGoToTheirTargets := fun nnn s =>
  ⟨⟨_, rfl, addressOperand_toNat nnn, onlyPc_applyPcAction s _⟩,
    ⟨_, rfl, addressOperand_add_wideOperand_toNat nnn (s.getV 0), onlyPc_applyPcAction s _⟩⟩

theorem onlyStackAndPc_of_eq {s t : State} (h : t = { s with stack := t.stack, sp := t.sp, pc := t.pc }) :
    onlyStackAndPc s t := by
  rw [h]
  exact ⟨fun _ _ => rfl, rfl, fun _ => rfl, rfl, rfl, ⟨rfl, rfl⟩, ⟨rfl, rfl, rfl⟩, rfl, rfl, rfl, rfl, rfl⟩

/-- Settles O45: the push below 16 entries, the fault of `faultOf` at 16. -/
theorem callPushesItsOwnAddress : Obligations.CallPushesItsOwnAddress := by
  refine fun nnn s => ⟨fun h => ⟨_, execCall_of_lt nnn h, addressOperand_toNat nnn, rfl, ?_, fun k hk hne => ?_,
    onlyStackAndPc_of_eq rfl⟩, fun h => exec_of_fault (if_pos h)⟩
  · exact Vector.getElem_set_self h
  · exact Vector.getElem_set_ne h hk hne.symm

/-- Settles O46: the pop above 0 entries, the fault of `faultOf` at 0. -/
theorem retReturnsPastTheCall : Obligations.RetReturnsPastTheCall := fun ign _ =>
  ⟨fun h => ⟨_, execRet_of_pos ign h, rfl, rfl, rfl, onlyStackAndPc_of_eq rfl⟩, fun h => exec_of_fault (if_pos h)⟩

/-- Settles O47: the entry that CALL pushed (O45) is the one that RET pops (O46). -/
theorem callThenRetReturns : Obligations.CallThenRetReturns := by
  intro nnn ign s t u hlt hcall hsp hlive
  obtain ⟨t', ht', -, htsp, htop, -⟩ := (callPushesItsOwnAddress nnn s).1 hlt
  obtain rfl : t = t' := Host.Outcome.next.inj (hcall.symm.trans ht')
  have husp : u.sp.val = s.sp.val + 1 := by rw [hsp, htsp]
  obtain ⟨r, hr, hpc, hrsp, -⟩ := (retReturnsPastTheCall ign u).1 (by omega)
  refine ⟨r, hr, ?_, Fin.ext (by omega)⟩
  rw [hpc]
  simp only [husp, Nat.add_sub_cancel]
  rw [hlive s.sp.val hlt (by omega), htop]

/-- Settles O48: by the mode, with the word of SYS as the number nnn. -/
theorem sysAdvancesOrFaults : Obligations.SysAdvancesOrFaults := by
  refine fun nnn s => ⟨fun h => ⟨_, execSys_of_nop nnn h, rfl, onlyPc_applyPcAction s _⟩, fun h => exec_of_fault ?_⟩
  have hword : (encode (.sys nnn)).toNat = nnn.toNat := by simp [encode, packA_toNat]
  rw [faultOf, if_pos h, hword]

/-! ## Index register and memory (43_index_memory.md) -/

theorem complete_setI_spec (s : State) (a : Word) :
    ∃ t, complete .advance (s.setI a) = .next t ∧ t.i = a ∧ t.pc = s.pc + 2 ∧ onlyIAndPc s t :=
  ⟨_, rfl, rfl, rfl, fun _ _ => rfl, fun _ => rfl, sameOther_of_eq rfl⟩

/-- A glyph's address needs no reduction: 255 * 5 is below 2^16 (R172). -/
theorem glyphAddress_toNat (b : Byte) : (glyphAddress b).toNat = b.toNat * 5 := by
  have hb := b.isLt
  rw [glyphAddress, BitVec.toNat_mul, wideOperand_toNat]
  exact Nat.mod_eq_of_lt (by show b.toNat * 5 < 65536; omega)

/-- Settles O49: three values of `complete_setI_spec`. -/
theorem indexRegisterWrites : Obligations.IndexRegisterWrites := by
  refine fun nnn x s => ⟨?_, ?_, ?_⟩
  · obtain ⟨t, ht, hi, hframe⟩ := complete_setI_spec s (addressOperand nnn)
    exact ⟨t, ht, by rw [hi, addressOperand_toNat], hframe⟩
  · obtain ⟨t, ht, hi, hframe⟩ := complete_setI_spec s (s.i + wideOperand (s.getV x))
    exact ⟨t, ht, by rw [hi, BitVec.toNat_add, wideOperand_toNat], hframe⟩
  · obtain ⟨t, ht, hi, hframe⟩ := complete_setI_spec s (glyphAddress (s.getV x))
    exact ⟨t, ht, by rw [hi, glyphAddress_toNat], hframe⟩

/-- A transfer of n bytes that ends past memory is the memory fault (R53). -/
theorem map_outOfRange {i : Word} {n : Nat} (h0 : n ≠ 0) (h : 4096 < i.toNat + n) :
    (outOfRange i n).map (Prod.mk Cause.memRange) = some (.memRange, max i.toNat 0x1000) := by
  rw [outOfRange_eq_some.mpr ⟨h0, h, rfl⟩]
  rfl

theorem ofNat_byte_toNat {n : Nat} (h : n < 256) : (BitVec.ofNat 8 n).toNat = n := by
  rw [BitVec.toNat_ofNat]
  exact Nat.mod_eq_of_lt h

/-- Settles O50: the three stores are read back by `readByte_digits`, and O23 gives the bytes outside. -/
theorem bcdStoresThreeDigits : Obligations.BcdStoresThreeDigits := by
  refine fun x s => ⟨fun h => ?_, fun h => exec_of_fault (map_outOfRange (by omega) (by omega))⟩
  have hb := (s.getV x).isLt
  have hexec : exec (.ldB x) s = .next _ := execLdB_of_fits x h
  refine ⟨_, hexec, ?_, ?_, ?_, memoryChangesOnlyWhereStored _ _ _ hexec, ?_⟩
  · rw [State.applyPcAction_readByte, readByte_digits, if_neg (by omega), if_neg (by omega), if_pos rfl]
    exact ofNat_byte_toNat (by omega)
  · rw [State.applyPcAction_readByte, readByte_digits, if_neg (by omega), if_pos rfl]
    exact ofNat_byte_toNat (by omega)
  · rw [State.applyPcAction_readByte, readByte_digits, if_pos rfl]
    exact ofNat_byte_toNat (by omega)
  · simp [PcAction.target, sameVExcept, sameOther, sameStack, sameTimers, sameControl, sameConfig]

theorem index_add_block_toNat {i : Word} {x : Nibble} (h : i.toNat + x.toNat ≤ 0xFFF) :
    (i + BitVec.ofNat 16 (x.toNat + 1)).toNat = i.toNat + x.toNat + 1 := by
  rw [BitVec.toNat_add, BitVec.toNat_ofNat]
  omega

/-- Settles O51: the stored block reads back as the registers, and O23 gives the bytes outside. -/
theorem blockStoreWritesV0ToVx : Obligations.BlockStoreWritesV0ToVx := by
  refine fun x s => ⟨fun h => ?_, fun h => exec_of_fault (map_outOfRange (by omega) (by omega))⟩
  refine ⟨_, execStoreRegs_of_fits x h, fun r hr => ?_,
    memoryChangesOnlyWhereStored (.storeRegs x) s _ (execStoreRegs_of_fits x h), index_add_block_toNat h, ?_,
    fun r _ => State.storeBlock_getV _ _ _ r, ?_⟩
  · rw [State.applyPcAction_readByte, State.setI_readByte, State.storeBlock_readByte, if_pos (by omega),
      Nat.add_sub_cancel_left, regNumber, BitVec.ofNat_toNat, BitVec.setWidth_eq]
  · rw [State.storeBlock_eq]
    rfl
  · rw [State.storeBlock_eq]
    exact sameOther_of_eq rfl

/-- Settles O52: by `State.loadBlock_getV`, inside and outside the block. -/
theorem blockLoadReadsV0ToVx : Obligations.BlockLoadReadsV0ToVx := by
  refine fun x s => ⟨fun h => ?_, fun h => exec_of_fault (map_outOfRange (by omega) (by omega))⟩
  have hx := x.isLt
  refine ⟨_, execLoadRegs_of_fits x h, fun r hr => ?_, fun r hr => ?_, index_add_block_toNat h, ?_,
    fun a => State.loadBlock_readByte _ _ _ a, ?_⟩
  · rw [State.applyPcAction_getV, State.setI_getV, State.loadBlock_getV _ _ (by omega), if_pos (by omega)]
  · rw [State.applyPcAction_getV, State.setI_getV, State.loadBlock_getV _ _ (by omega), if_neg (by omega)]
  · rw [State.loadBlock_eq]
    rfl
  · rw [State.loadBlock_eq]
    exact sameOther_of_eq rfl

/-- Settles O53: what O51 stored is what O52 loads. -/
theorem blockStoreThenLoadRoundTrip : Obligations.BlockStoreThenLoadRoundTrip := by
  intro x s t u h hstore hi hmem
  obtain ⟨t', ht', hstored, -, hti, -⟩ := (blockStoreWritesV0ToVx x s).1 h
  obtain rfl : t = t' := Host.Outcome.next.inj (hstore.symm.trans ht')
  obtain ⟨r, hr, hloaded, -, hri, -⟩ := (blockLoadReadsV0ToVx x u).1 (by rwa [hi])
  refine ⟨r, hr, fun k hk => ?_, BitVec.eq_of_toNat_eq ?_, BitVec.eq_of_toNat_eq ?_⟩
  · rw [hloaded k hk, hmem, hi, hstored k hk]
  · rw [hti, index_add_block_toNat h]
  · rw [hri, hti, hi]

/-! ## Display (44_display.md) -/

/-- Settles O54: CLS writes the blank screen and nothing else. -/
theorem clsClearsTheScreen : Obligations.ClsClearsTheScreen := fun _ _ =>
  ⟨_, rfl, FrameBuffer.blank_pixel, rfl, fun _ _ => rfl, rfl, fun _ => rfl, rfl, ⟨rfl, rfl⟩, ⟨rfl, rfl⟩,
    sameControl_of_eq rfl⟩

/-- Settles O56: the range check faults whatever the clip mode. -/
theorem drwOutOfRangeFaults : Obligations.DrwOutOfRangeFaults := by
  intro x y n s hn h
  have hpos : n.toNat ≠ 0 := fun e => hn (BitVec.eq_of_toNat_eq e)
  exact exec_of_fault (map_outOfRange hpos (by omega))

/-! ## Keys and timers (45_keys_timers.md) -/

/-- Settles O57: as the skips, below 16; above, the fault of `faultOf`. -/
theorem keySkipsReadTheKeyInVx : Obligations.KeySkipsReadTheKeyInVx := by
  refine fun x s => ⟨fun h => ⟨?_, ?_⟩, fun h => ⟨exec_of_fault (if_pos h), exec_of_fault (if_pos h)⟩⟩
  · obtain ⟨t, ht, hdone⟩ := complete_skipIf_spec (s.keyHeld (s.getV x).toNat) s
    exact ⟨t, Eq.trans (if_neg (by omega)) ht, hdone⟩
  · obtain ⟨t, ht, hdone⟩ := complete_skipIf_not_spec (s.keyHeld (s.getV x).toNat) s
    exact ⟨t, Eq.trans (if_neg (by omega)) ht, hdone⟩

/-- Settles O58: by whether a key is chosen; the choice is free by `chooseKey_surjective`. -/
theorem keyWaitStoresAHeldKey : Obligations.KeyWaitStoresAHeldKey := by
  refine fun x s => ⟨fun h => execLdVxK_of_none (chooseKey_eq_none.mpr h), fun k hk hheld => ⟨?_, ?_⟩⟩
  · cases hkey : chooseKey s.env.keys s.env.choice with
    | none =>
      rw [chooseKey_eq_none.mp hkey k hk] at hheld
      cases hheld
    | some b =>
      obtain ⟨hlt, hb⟩ := chooseKey_held hkey
      obtain ⟨t, ht, hres, hframe⟩ := writeResult_spec x b s
      exact ⟨t, (execLdVxK_of_some hkey).trans ht, by rwa [hres], by rwa [hres], hframe⟩
  · obtain ⟨c, hc⟩ := chooseKey_surjective hk hheld
    refine ⟨c, _, execLdVxK_of_some hc, ?_⟩
    rw [State.applyPcAction_getV, State.getV_setV_same]
    exact ofNat_byte_toNat (by omega)

/-- Settles O59: one register or one timer written. -/
theorem timerInstructionsMoveTheTimers : Obligations.TimerInstructionsMoveTheTimers := fun x s =>
  ⟨writeResult_spec x s.dt s,
    ⟨_, rfl, rfl, rfl, fun _ _ => rfl, rfl, fun _ => rfl, rfl, rfl, ⟨rfl, rfl⟩, rfl, sameControl_of_eq rfl⟩,
    ⟨_, rfl, rfl, bne_iff_ne, rfl, fun _ _ => rfl, rfl, fun _ => rfl, rfl, rfl, ⟨rfl, rfl⟩, rfl,
      sameControl_of_eq rfl⟩⟩

end Sys2Proof.Machine
